-- ==== Sys2Proof/Word.lean ====
section
/-! DEFINITION. The word types of the CHIP-8 core (spec 00_scope.md R6, R7): every value of the
machine that the spec treats as bits is a `BitVec` of its stated width, unsigned throughout. -/

namespace Sys2Proof

/-- An 8-bit byte: a general register, a timer, a memory cell (R6). -/
abbrev Byte := BitVec 8

/-- A 16-bit value: the program counter, the index register, a stack entry, an instruction word (R6). -/
abbrev Word := BitVec 16

/-- A 4-bit register index, field X or Y of an instruction; every value names a register (R10, R46). -/
abbrev RegIdx := BitVec 4

/-- A 4-bit count or selector, field N of an instruction (R46). -/
abbrev Nibble := BitVec 4

/-- A 12-bit absolute address or immediate, field NNN of an instruction (R46). -/
abbrev Addr := BitVec 12

end Sys2Proof
end

