-- ==== Sys2Proof/Syntax.lean ====
section
/-! DEFINITION. The instructions (spec 30_encoding.md R46 to R60): one constructor per row of
spec/opcode_table.json, in the table's order, and the types the decoder speaks in. -/

namespace Sys2Proof

/-- The instructions.  A field the operation ignores (the low nibble of `5XY_` and `9XY_`, the Y of
`8XY6` and `8XYE`, R56; every field of the unrecognized words, R83) is kept as an operand, so that a
word and its instruction determine each other (assumption 12). -/
inductive Instr where
  /-- `00E0` CLS, R121. -/
  | cls
  /-- `00EE` RET, R77. -/
  | ret
  /-- `1NNN` JP nnn, R75. -/
  | jp (nnn : Addr)
  /-- `2NNN` CALL nnn, R76. -/
  | call (nnn : Addr)
  /-- `3XKK` SE Vx, kk, R79. -/
  | seImm (x : RegIdx) (kk : Byte)
  /-- `4XKK` SNE Vx, kk, R80. -/
  | sneImm (x : RegIdx) (kk : Byte)
  /-- `5XY_` SE Vx, Vy, R81; `n` is ignored. -/
  | seReg (x y : RegIdx) (n : Nibble)
  /-- `6XKK` LD Vx, kk, R91. -/
  | ldImm (x : RegIdx) (kk : Byte)
  /-- `7XKK` ADD Vx, kk, R92. -/
  | addImm (x : RegIdx) (kk : Byte)
  /-- `8XY0` LD Vx, Vy, R93. -/
  | ldReg (x y : RegIdx)
  /-- `8XY1` OR Vx, Vy, R94. -/
  | orReg (x y : RegIdx)
  /-- `8XY2` AND Vx, Vy, R95. -/
  | andReg (x y : RegIdx)
  /-- `8XY3` XOR Vx, Vy, R96. -/
  | xorReg (x y : RegIdx)
  /-- `8XY4` ADD Vx, Vy, R97. -/
  | addReg (x y : RegIdx)
  /-- `8XY5` SUB Vx, Vy, R98. -/
  | subReg (x y : RegIdx)
  /-- `8XY6` SHR Vx, R99; `y` is ignored. -/
  | shr (x y : RegIdx)
  /-- `8XY7` SUBN Vx, Vy, R100. -/
  | subnReg (x y : RegIdx)
  /-- `8XYE` SHL Vx, R101; `y` is ignored. -/
  | shl (x y : RegIdx)
  /-- `9XY_` SNE Vx, Vy, R82; `n` is ignored. -/
  | sneReg (x y : RegIdx) (n : Nibble)
  /-- `ANNN` LD I, nnn, R110. -/
  | ldI (nnn : Addr)
  /-- `BNNN` JP V0, nnn, R78. -/
  | jpV0 (nnn : Addr)
  /-- `CXKK` RND Vx, kk, R102. -/
  | rnd (x : RegIdx) (kk : Byte)
  /-- `DXYN` DRW Vx, Vy, n, R122. -/
  | draw (x y : RegIdx) (n : Nibble)
  /-- `EX9E` SKP Vx, R130. -/
  | skp (x : RegIdx)
  /-- `EXA1` SKNP Vx, R131. -/
  | sknp (x : RegIdx)
  /-- `FX07` LD Vx, DT, R133. -/
  | ldVxDt (x : RegIdx)
  /-- `FX0A` LD Vx, K, R132. -/
  | ldVxK (x : RegIdx)
  /-- `FX15` LD DT, Vx, R134. -/
  | ldDtVx (x : RegIdx)
  /-- `FX18` LD ST, Vx, R135. -/
  | ldStVx (x : RegIdx)
  /-- `FX1E` ADD I, Vx, R111. -/
  | addI (x : RegIdx)
  /-- `FX29` LD F, Vx, R112. -/
  | ldF (x : RegIdx)
  /-- `FX33` LD B, Vx, R113. -/
  | ldB (x : RegIdx)
  /-- `FX55` LD [I], Vx, R114. -/
  | stRegs (x : RegIdx)
  /-- `FX65` LD Vx, [I], R115. -/
  | ldRegs (x : RegIdx)
  /-- An unrecognized word of family 0x0, R57, R83. -/
  | nopSys (nnn : Addr)
  /-- An unrecognized word of family 0x8, R57, R83. -/
  | nopAlu (x y : RegIdx) (n : Nibble)
  /-- An unrecognized word of family 0xE, R57, R83. -/
  | nopKey (x : RegIdx) (kk : Byte)
  /-- An unrecognized word of family 0xF, R57, R83. -/
  | nopMisc (x : RegIdx) (kk : Byte)
deriving DecidableEq, Repr

/-- The 35 operation classes, in the order of R60. -/
inductive OpClass where
  | cls | ret | jp | call | seImm | sneImm | seReg | ldImm | addImm
  | ldReg | or | and | xor | addReg | subReg | shr | subnReg | shl
  | sneReg | ldI | jpV0 | rnd | draw | skp | sknp
  | ldVxDt | ldVxK | ldDtVx | ldStVx | addI | ldF | ldB | stRegs | ldRegs
  | nopUnrecognized
deriving DecidableEq, Repr

/-- The decoder's output record (R47): the raw word, all six fields whatever the class, and the class. -/
structure Descriptor where
  raw    : Word
  family : Nibble
  x      : RegIdx
  y      : RegIdx
  nnn    : Addr
  kk     : Byte
  n      : Nibble
  cls    : OpClass
deriving DecidableEq, Repr

/-- One row of the table of R60: a word `w` matches when `w &&& mask = pattern`. -/
structure OpcodeRow where
  cls     : OpClass
  pattern : Word
  mask    : Word
deriving DecidableEq, Repr

/-- Why a list of bytes is no instruction.  The only reason is its length: every 16-bit word has a
class (R47). -/
inductive DecodeError where
  /-- Fewer than the two bytes of an instruction (R45). -/
  | truncated
deriving DecidableEq, Repr

end Sys2Proof
end

