-- ==== Sys2Proof/WellFormed.lean ====
section
/-! DEFINITION. Which terms of `Instr` stand for a word.  Every field value of a recognized instruction
is legal (spec 30_encoding.md R46, R56); an unrecognized-word constructor must hold a selector that no
recognized instruction of its family has (R57). -/

namespace Sys2Proof

/-- The selector values of family 0x8 that are operations (R53). -/
def recognizedAlu : List Nibble := [0x0, 0x1, 0x2, 0x3, 0x4, 0x5, 0x6, 0x7, 0xE]

/-- The selector bytes of family 0xE that are operations (R54). -/
def recognizedKey : List Byte := [0x9E, 0xA1]

/-- The selector bytes of family 0xF that are operations (R55). -/
def recognizedMisc : List Byte := [0x07, 0x0A, 0x15, 0x18, 0x1E, 0x29, 0x33, 0x55, 0x65]

/-- The selectors of family 0x0 that are operations (R52). -/
def recognizedSys : List Addr := [0x0E0, 0x0EE]

/-- The instruction stands for exactly one word (R57 for the unrecognized classes). -/
def Instr.wellFormed : Instr → Bool
  | .cls => true
  | .ret => true
  | .jp _ => true
  | .call _ => true
  | .seImm _ _ => true
  | .sneImm _ _ => true
  | .seReg _ _ _ => true
  | .ldImm _ _ => true
  | .addImm _ _ => true
  | .ldReg _ _ => true
  | .orReg _ _ => true
  | .andReg _ _ => true
  | .xorReg _ _ => true
  | .addReg _ _ => true
  | .subReg _ _ => true
  | .shr _ _ => true
  | .subnReg _ _ => true
  | .shl _ _ => true
  | .sneReg _ _ _ => true
  | .ldI _ => true
  | .jpV0 _ => true
  | .rnd _ _ => true
  | .draw _ _ _ => true
  | .skp _ => true
  | .sknp _ => true
  | .ldVxDt _ => true
  | .ldVxK _ => true
  | .ldDtVx _ => true
  | .ldStVx _ => true
  | .addI _ => true
  | .ldF _ => true
  | .ldB _ => true
  | .stRegs _ => true
  | .ldRegs _ => true
  | .nopSys nnn => !recognizedSys.contains nnn
  | .nopAlu _ _ n => !recognizedAlu.contains n
  | .nopKey _ kk => !recognizedKey.contains kk
  | .nopMisc _ kk => !recognizedMisc.contains kk

end Sys2Proof
end

