-- ==== Sys2Proof/Decode.lean ====
section
/-! DEFINITION. The decoder and the encoder (spec 30_encoding.md R45 to R62).  The decoder is a pure
total function of the 16-bit word (R47, R59); the encoder is its inverse (R62), written from R62's
own list. -/

namespace Sys2Proof

/-! ### The fields of a word (R46) -/

/-- `family = w[15:12]` (R46). -/
def fieldFamily (w : Word) : Nibble := w.extractLsb' 12 4

/-- `X = w[11:8]` (R46). -/
def fieldX (w : Word) : RegIdx := w.extractLsb' 8 4

/-- `Y = w[7:4]` (R46). -/
def fieldY (w : Word) : RegIdx := w.extractLsb' 4 4

/-- `N = w[3:0]` (R46). -/
def fieldN (w : Word) : Nibble := w.extractLsb' 0 4

/-- `KK = w[7:0]` (R46). -/
def fieldKK (w : Word) : Byte := w.extractLsb' 0 8

/-- `NNN = w[11:0]` (R46). -/
def fieldNNN (w : Word) : Addr := w.extractLsb' 0 12

/-! ### Classification (R50 to R55, R59) -/

/-- Family 0x0, selected by all of `NNN` (R52). -/
def classifySys (nnn : Addr) : OpClass :=
  if nnn = 0x0E0#12 then .cls
  else if nnn = 0x0EE#12 then .ret
  else .nopUnrecognized

/-- Family 0x8, selected by `N` (R53). -/
def classifyAlu (n : Nibble) : OpClass :=
  if n = 0x0#4 then .ldReg
  else if n = 0x1#4 then .or
  else if n = 0x2#4 then .and
  else if n = 0x3#4 then .xor
  else if n = 0x4#4 then .addReg
  else if n = 0x5#4 then .subReg
  else if n = 0x6#4 then .shr
  else if n = 0x7#4 then .subnReg
  else if n = 0xE#4 then .shl
  else .nopUnrecognized

/-- Family 0xE, selected by `KK` (R54). -/
def classifyKey (kk : Byte) : OpClass :=
  if kk = 0x9E#8 then .skp
  else if kk = 0xA1#8 then .sknp
  else .nopUnrecognized

/-- Family 0xF, selected by `KK` (R55). -/
def classifyMisc (kk : Byte) : OpClass :=
  if kk = 0x07#8 then .ldVxDt
  else if kk = 0x0A#8 then .ldVxK
  else if kk = 0x15#8 then .ldDtVx
  else if kk = 0x18#8 then .ldStVx
  else if kk = 0x1E#8 then .addI
  else if kk = 0x29#8 then .ldF
  else if kk = 0x33#8 then .ldB
  else if kk = 0x55#8 then .stRegs
  else if kk = 0x65#8 then .ldRegs
  else .nopUnrecognized

/-- The two-level dispatch: the high nibble selects a family, and in families 0x0, 0x8, 0xE and 0xF a
secondary selector the operation (R50, R59). -/
def classify (w : Word) : OpClass :=
  if fieldFamily w = 0x0#4 then classifySys (fieldNNN w)
  else if fieldFamily w = 0x1#4 then .jp
  else if fieldFamily w = 0x2#4 then .call
  else if fieldFamily w = 0x3#4 then .seImm
  else if fieldFamily w = 0x4#4 then .sneImm
  else if fieldFamily w = 0x5#4 then .seReg
  else if fieldFamily w = 0x6#4 then .ldImm
  else if fieldFamily w = 0x7#4 then .addImm
  else if fieldFamily w = 0x8#4 then classifyAlu (fieldN w)
  else if fieldFamily w = 0x9#4 then .sneReg
  else if fieldFamily w = 0xA#4 then .ldI
  else if fieldFamily w = 0xB#4 then .jpV0
  else if fieldFamily w = 0xC#4 then .rnd
  else if fieldFamily w = 0xD#4 then .draw
  else if fieldFamily w = 0xE#4 then classifyKey (fieldKK w)
  else classifyMisc (fieldKK w)

/-- The descriptor of a word: every field, whatever the class (R47). -/
def describe (w : Word) : Descriptor :=
  { raw := w, family := fieldFamily w, x := fieldX w, y := fieldY w,
    nnn := fieldNNN w, kk := fieldKK w, n := fieldN w, cls := classify w }

/-! ### The decoder (R59) -/

/-- The instruction of an unrecognized word, by family (R57). -/
def decodeUnrecognized (w : Word) : Instr :=
  if fieldFamily w = 0x0#4 then .nopSys (fieldNNN w)
  else if fieldFamily w = 0x8#4 then .nopAlu (fieldX w) (fieldY w) (fieldN w)
  else if fieldFamily w = 0xE#4 then .nopKey (fieldX w) (fieldKK w)
  else .nopMisc (fieldX w) (fieldKK w)

/-- The instruction of a descriptor: its class with the fields the class uses (R47, R48). -/
def Descriptor.toInstr (d : Descriptor) : Instr :=
  match d.cls with
  | .cls => .cls
  | .ret => .ret
  | .jp => .jp d.nnn
  | .call => .call d.nnn
  | .seImm => .seImm d.x d.kk
  | .sneImm => .sneImm d.x d.kk
  | .seReg => .seReg d.x d.y d.n
  | .ldImm => .ldImm d.x d.kk
  | .addImm => .addImm d.x d.kk
  | .ldReg => .ldReg d.x d.y
  | .or => .orReg d.x d.y
  | .and => .andReg d.x d.y
  | .xor => .xorReg d.x d.y
  | .addReg => .addReg d.x d.y
  | .subReg => .subReg d.x d.y
  | .shr => .shr d.x d.y
  | .subnReg => .subnReg d.x d.y
  | .shl => .shl d.x d.y
  | .sneReg => .sneReg d.x d.y d.n
  | .ldI => .ldI d.nnn
  | .jpV0 => .jpV0 d.nnn
  | .rnd => .rnd d.x d.kk
  | .draw => .draw d.x d.y d.n
  | .skp => .skp d.x
  | .sknp => .sknp d.x
  | .ldVxDt => .ldVxDt d.x
  | .ldVxK => .ldVxK d.x
  | .ldDtVx => .ldDtVx d.x
  | .ldStVx => .ldStVx d.x
  | .addI => .addI d.x
  | .ldF => .ldF d.x
  | .ldB => .ldB d.x
  | .stRegs => .stRegs d.x
  | .ldRegs => .ldRegs d.x
  | .nopUnrecognized => decodeUnrecognized d.raw

/-- The decoder: total on all 65536 words (R47, R59). -/
def decodeWord (w : Word) : Instr := (describe w).toInstr

/-- The word of two bytes in memory order: the byte at the lower address supplies bits 15:8 (R33). -/
def wordOfBytes (hi lo : Byte) : Word := BitVec.ofNat 16 (hi.toNat * 256 + lo.toNat)

/-- Decode the instruction at the head of a list of bytes and return the bytes after it; two bytes
make an instruction, high byte first (R33, R45). -/
def decodeBytes : List Byte → Except DecodeError (Instr × List Byte)
  | hi :: lo :: rest => .ok (decodeWord (wordOfBytes hi lo), rest)
  | [_] => .error .truncated
  | [] => .error .truncated

/-! ### The encoder (R62) -/

/-- The word of an instruction (R62); an unrecognized word is its family nibble before its fields. -/
def encode : Instr → Word
  | .cls => 0x00E0#16
  | .ret => 0x00EE#16
  | .jp nnn => BitVec.ofNat 16 (0x1000 + nnn.toNat)
  | .call nnn => BitVec.ofNat 16 (0x2000 + nnn.toNat)
  | .seImm x kk => BitVec.ofNat 16 (0x3000 + x.toNat * 256 + kk.toNat)
  | .sneImm x kk => BitVec.ofNat 16 (0x4000 + x.toNat * 256 + kk.toNat)
  | .seReg x y n => BitVec.ofNat 16 (0x5000 + x.toNat * 256 + y.toNat * 16 + n.toNat)
  | .ldImm x kk => BitVec.ofNat 16 (0x6000 + x.toNat * 256 + kk.toNat)
  | .addImm x kk => BitVec.ofNat 16 (0x7000 + x.toNat * 256 + kk.toNat)
  | .ldReg x y => BitVec.ofNat 16 (0x8000 + x.toNat * 256 + y.toNat * 16)
  | .orReg x y => BitVec.ofNat 16 (0x8001 + x.toNat * 256 + y.toNat * 16)
  | .andReg x y => BitVec.ofNat 16 (0x8002 + x.toNat * 256 + y.toNat * 16)
  | .xorReg x y => BitVec.ofNat 16 (0x8003 + x.toNat * 256 + y.toNat * 16)
  | .addReg x y => BitVec.ofNat 16 (0x8004 + x.toNat * 256 + y.toNat * 16)
  | .subReg x y => BitVec.ofNat 16 (0x8005 + x.toNat * 256 + y.toNat * 16)
  | .shr x y => BitVec.ofNat 16 (0x8006 + x.toNat * 256 + y.toNat * 16)
  | .subnReg x y => BitVec.ofNat 16 (0x8007 + x.toNat * 256 + y.toNat * 16)
  | .shl x y => BitVec.ofNat 16 (0x800E + x.toNat * 256 + y.toNat * 16)
  | .sneReg x y n => BitVec.ofNat 16 (0x9000 + x.toNat * 256 + y.toNat * 16 + n.toNat)
  | .ldI nnn => BitVec.ofNat 16 (0xA000 + nnn.toNat)
  | .jpV0 nnn => BitVec.ofNat 16 (0xB000 + nnn.toNat)
  | .rnd x kk => BitVec.ofNat 16 (0xC000 + x.toNat * 256 + kk.toNat)
  | .draw x y n => BitVec.ofNat 16 (0xD000 + x.toNat * 256 + y.toNat * 16 + n.toNat)
  | .skp x => BitVec.ofNat 16 (0xE09E + x.toNat * 256)
  | .sknp x => BitVec.ofNat 16 (0xE0A1 + x.toNat * 256)
  | .ldVxDt x => BitVec.ofNat 16 (0xF007 + x.toNat * 256)
  | .ldVxK x => BitVec.ofNat 16 (0xF00A + x.toNat * 256)
  | .ldDtVx x => BitVec.ofNat 16 (0xF015 + x.toNat * 256)
  | .ldStVx x => BitVec.ofNat 16 (0xF018 + x.toNat * 256)
  | .addI x => BitVec.ofNat 16 (0xF01E + x.toNat * 256)
  | .ldF x => BitVec.ofNat 16 (0xF029 + x.toNat * 256)
  | .ldB x => BitVec.ofNat 16 (0xF033 + x.toNat * 256)
  | .stRegs x => BitVec.ofNat 16 (0xF055 + x.toNat * 256)
  | .ldRegs x => BitVec.ofNat 16 (0xF065 + x.toNat * 256)
  | .nopSys nnn => BitVec.ofNat 16 (0x0000 + nnn.toNat)
  | .nopAlu x y n => BitVec.ofNat 16 (0x8000 + x.toNat * 256 + y.toNat * 16 + n.toNat)
  | .nopKey x kk => BitVec.ofNat 16 (0xE000 + x.toNat * 256 + kk.toNat)
  | .nopMisc x kk => BitVec.ofNat 16 (0xF000 + x.toNat * 256 + kk.toNat)

/-- The two bytes of a word in memory order, high byte first (R33). -/
def bytesOfWord (w : Word) : List Byte := [w.extractLsb' 8 8, w.extractLsb' 0 8]

/-- The bytes of an instruction in memory order (R45). -/
def encodeBytes (i : Instr) : List Byte := bytesOfWord (encode i)

/-! ### The opcode table (R60) -/

/-- The operation class of an instruction (R60); the four unrecognized constructors share one class. -/
def Instr.opClass : Instr → OpClass
  | .cls => .cls
  | .ret => .ret
  | .jp _ => .jp
  | .call _ => .call
  | .seImm _ _ => .seImm
  | .sneImm _ _ => .sneImm
  | .seReg _ _ _ => .seReg
  | .ldImm _ _ => .ldImm
  | .addImm _ _ => .addImm
  | .ldReg _ _ => .ldReg
  | .orReg _ _ => .or
  | .andReg _ _ => .and
  | .xorReg _ _ => .xor
  | .addReg _ _ => .addReg
  | .subReg _ _ => .subReg
  | .shr _ _ => .shr
  | .subnReg _ _ => .subnReg
  | .shl _ _ => .shl
  | .sneReg _ _ _ => .sneReg
  | .ldI _ => .ldI
  | .jpV0 _ => .jpV0
  | .rnd _ _ => .rnd
  | .draw _ _ _ => .draw
  | .skp _ => .skp
  | .sknp _ => .sknp
  | .ldVxDt _ => .ldVxDt
  | .ldVxK _ => .ldVxK
  | .ldDtVx _ => .ldDtVx
  | .ldStVx _ => .ldStVx
  | .addI _ => .addI
  | .ldF _ => .ldF
  | .ldB _ => .ldB
  | .stRegs _ => .stRegs
  | .ldRegs _ => .ldRegs
  | .nopSys _ => .nopUnrecognized
  | .nopAlu _ _ _ => .nopUnrecognized
  | .nopKey _ _ => .nopUnrecognized
  | .nopMisc _ _ => .nopUnrecognized

/-- Rows 1 to 18 of the table of R60. -/
def opcodeTableLow : List OpcodeRow :=
  [⟨.cls, 0x00E0, 0xFFFF⟩, ⟨.ret, 0x00EE, 0xFFFF⟩, ⟨.jp, 0x1000, 0xF000⟩,
   ⟨.call, 0x2000, 0xF000⟩, ⟨.seImm, 0x3000, 0xF000⟩, ⟨.sneImm, 0x4000, 0xF000⟩,
   ⟨.seReg, 0x5000, 0xF000⟩, ⟨.ldImm, 0x6000, 0xF000⟩, ⟨.addImm, 0x7000, 0xF000⟩,
   ⟨.ldReg, 0x8000, 0xF00F⟩, ⟨.or, 0x8001, 0xF00F⟩, ⟨.and, 0x8002, 0xF00F⟩,
   ⟨.xor, 0x8003, 0xF00F⟩, ⟨.addReg, 0x8004, 0xF00F⟩, ⟨.subReg, 0x8005, 0xF00F⟩,
   ⟨.shr, 0x8006, 0xF00F⟩, ⟨.subnReg, 0x8007, 0xF00F⟩, ⟨.shl, 0x800E, 0xF00F⟩]

/-- Rows 19 to 34 of the table of R60. -/
def opcodeTableHigh : List OpcodeRow :=
  [⟨.sneReg, 0x9000, 0xF000⟩, ⟨.ldI, 0xA000, 0xF000⟩, ⟨.jpV0, 0xB000, 0xF000⟩,
   ⟨.rnd, 0xC000, 0xF000⟩, ⟨.draw, 0xD000, 0xF000⟩, ⟨.skp, 0xE09E, 0xF0FF⟩,
   ⟨.sknp, 0xE0A1, 0xF0FF⟩, ⟨.ldVxDt, 0xF007, 0xF0FF⟩, ⟨.ldVxK, 0xF00A, 0xF0FF⟩,
   ⟨.ldDtVx, 0xF015, 0xF0FF⟩, ⟨.ldStVx, 0xF018, 0xF0FF⟩, ⟨.addI, 0xF01E, 0xF0FF⟩,
   ⟨.ldF, 0xF029, 0xF0FF⟩, ⟨.ldB, 0xF033, 0xF0FF⟩, ⟨.stRegs, 0xF055, 0xF0FF⟩,
   ⟨.ldRegs, 0xF065, 0xF0FF⟩]

/-- The 34 match and mask pairs of R60, written from that rule and used by no other definition: a
second reading of the encoding to hold the decoder against. -/
def opcodeTable : List OpcodeRow := opcodeTableLow ++ opcodeTableHigh

/-! ### The host's numbering of a word -/

/-- The 16-bit word of a table row: the low `nbits` bits of `w`, every bit above them zero. -/
def tableWord (nbits w : Nat) : Word := BitVec.ofNat 16 (w % 2 ^ nbits)

/-- The instruction the decoder reads from the bytes of a table word, laid out high byte first (R33). -/
def decodeTableWord (nbits w : Nat) : Option Instr :=
  match decodeBytes (bytesOfWord (tableWord nbits w)) with
  | .ok (i, _) => some i
  | .error _ => none

end Sys2Proof
end

