-- ==== Sys2Proof/Config.lean ====
section
/-! DEFINITION. What an implementation fixes (the sizes of spec 00_scope.md R6) and the free values:
the inputs `key` and `rand`, which come from outside the core (10_state.md R19, R20). -/

namespace Sys2Proof

/-- `MEM_SIZE`: the address space has 4096 bytes (R6, R30). -/
abbrev Config.memSize : Nat := 4096

/-- `PROG_BASE`: the load address of a program image and the reset value of PC (R6, R13). -/
abbrev Config.progBase : Nat := 512

/-- `MAX_IMAGE`: the longest program image, 4096 - 512 bytes (R6, R162). -/
abbrev Config.maxImage : Nat := 3584

/-- `STACK_DEPTH`: the call stack holds 16 return addresses (R6, R14). -/
abbrev Config.stackDepth : Nat := 16

/-- The framebuffer has 64 columns (R6, R120). -/
abbrev Config.columns : Nat := 64

/-- The framebuffer has 32 rows (R6, R120). -/
abbrev Config.rows : Nat := 32

/-- FREE VALUE (assumption 1, DESIGN CHOICE, safe): the key-state vector the input adapter presents in
cycle number `n` when the state schedules no input for it; bit `k` is `key[k]` (R19).  It has no body,
so a statement that uses it holds for every sequence of key states. -/
opaque Config.freeKeys : Nat → BitVec 16

/-- FREE VALUE (assumption 1, DESIGN CHOICE, safe): the random byte presented in cycle number `n` when
the state schedules no input for it (R20, decision D13: "one free 8-bit value per cycle"). -/
opaque Config.freeRand : Nat → Byte

end Sys2Proof
end

