-- ==== Sys2Proof/Machine/State.lean ====
section
/-! DEFINITION. The state of the core (spec 10_state.md R10 to R27), the reasons a step can stop, and
the state after reset (R24, R160). -/

namespace Sys2Proof.Machine

/-- The control-transfer outcome of a cycle (R21, R72). -/
inductive Transfer where
  /-- PC advances by 2. -/
  | normal
  /-- PC advances by 4. -/
  | skip
  /-- The handler set PC, or left it; no advance follows. -/
  | transferred
deriving DecidableEq, Repr

/-- The inputs of one cycle: the key-state vector, bit `k` being `key[k]` (R19), and the random byte
(R20). -/
structure Input where
  keys : BitVec 16
  rand : Byte
deriving DecidableEq, Repr

/-- The memory array as plain data: (address, byte) pairs, addresses strictly rising, no pair equal to
what an unlisted address reads as (assumption 6).  Read and written only through Machine/Memory.lean. -/
abbrev Memory := List Host.Cell

/-- The framebuffer: row `y` is element `y`, and bit `x` of a row is the pixel in column `x` (R18,
R120, assumption 7). -/
abbrev Framebuffer := Vector (BitVec 64) 32

/-- The state of the machine.  The fields `v` to `fb` are the architectural state of 10_state.md
section 1; `outcome` is the output of the cycle just executed (R21, R22, assumption 2); `initialized`
says that the host has called `initialize` (R164, assumption 4); `inputs` and `cycle` give each cycle
its `key` and `rand` inputs (R19, R20, assumption 1). -/
structure State where
  /-- `V[0]` to `V[0xF]`, 16 registers of 8 bits (R10); `V[0xF]` is the flag register (R11). -/
  v : Vector Byte 16
  /-- The index register `I`, 16 bits (R12). -/
  index : Word
  /-- The program counter, 16 bits (R13). -/
  pc : Word
  /-- `SP`, the number of stack entries in use, 5 bits (R14). -/
  sp : BitVec 5
  /-- `STACK[0]` to `STACK[15]`, 16 entries of 16 bits (R14). -/
  stack : Vector Word 16
  /-- The delay timer (R15). -/
  dt : Byte
  /-- The sound timer (R16). -/
  st : Byte
  /-- `MEM`, 4096 bytes (R17, R30). -/
  mem : Memory
  /-- `FB`, 64 by 32 pixels (R18). -/
  fb : Framebuffer
  /-- The `outcome` output: the control-transfer outcome of the last completed cycle, none before the
  first (R22, R24). -/
  outcome : Option Transfer
  /-- `initialize` has been called (R164). -/
  initialized : Bool
  /-- The inputs already fixed for the coming cycles, the first one for the next cycle; beyond them
  the inputs are the free values of Config (assumption 1). -/
  inputs : List Input
  /-- The number of completed cycles: the argument of the free inputs (assumption 1). -/
  cycle : Nat
deriving DecidableEq, Repr

/-- Why a cycle does not complete.  The list of R140 is complete. -/
inductive Fault where
  /-- `StackFault(overflow)`: CALL with `SP = 16` (R141).  Raised by `execCall`.  Safe: the spec's own
  policy (decision D5), and the state is unchanged (R143). -/
  | stackOverflow
  /-- `StackFault(underflow)`: RET with `SP = 0` (R142).  Raised by `execRet`.  Safe: the spec's own
  policy (decision D5), and the state is unchanged (R143). -/
  | stackUnderflow
deriving DecidableEq, Repr

/-- Why an operation has no meaning. -/
inductive Refusal where
  /-- An instruction with no meaning yet.  Safe.  No arm of `exec` answers it. -/
  | notModelled (mnemonic : String)
  /-- `step` or `loadProgram` before the first `initialize` (R164: "A model must give `step` and
  `loadProgram` no meaning before the first `initialize` (refuse)").  Raised by `step` and
  `loadProgram`.  Safe. -/
  | uninitialized
  /-- CALL or RET with `SP` above 16, a stack count that no reachable state has (R14, R26) and for
  which the spec gives no meaning.  Raised by `execCall` and `execRet`.  Safe (assumption 5). -/
  | stackCountOutOfRange
deriving DecidableEq, Repr

/-- Why the host operation `loadProgram` fails (R147).  It is no event of the instruction stream. -/
inductive LoadError where
  /-- The image is longer than 3584 bytes (R162).  Raised by `loadProgram`.  Safe. -/
  | imageTooLong
deriving DecidableEq, Repr

/-- What an instruction or a step answers. -/
abbrev Result := Host.Outcome State Fault Refusal

/-- The state after `initialize` (R24, R160): "all zero except font table and initial PC=512".  The
font is what the unlisted addresses 0 to 79 read as (Machine/Memory.lean), so no byte is listed. -/
def State.reset : State where
  v := Vector.replicate 16 0#8
  index := 0#16
  pc := 512#16
  sp := 0#5
  stack := Vector.replicate 16 0#16
  dt := 0#8
  st := 0#8
  mem := []
  fb := Vector.replicate 32 0#64
  outcome := none
  initialized := true
  inputs := []
  cycle := 0

end Sys2Proof.Machine
end

