-- ==== Sys2Proof/Machine/Memory.lean ====
section
/-! DEFINITION. The memory array (spec 20_memory.md R30 to R44): what an address reads as after reset,
the byte-wide read and write of R32 with the address masking of R31, and the canonical form. -/

namespace Sys2Proof.Machine

/-- Glyphs 0 to 7 of the font table (R36). -/
def fontLow : List Byte :=
  [0xF0, 0x90, 0x90, 0x90, 0xF0,  0x20, 0x60, 0x20, 0x20, 0x70,
   0xF0, 0x10, 0xF0, 0x80, 0xF0,  0xF0, 0x10, 0xF0, 0x10, 0xF0,
   0x90, 0x90, 0xF0, 0x10, 0x10,  0xF0, 0x80, 0xF0, 0x10, 0xF0,
   0xF0, 0x80, 0xF0, 0x90, 0xF0,  0xF0, 0x10, 0x20, 0x40, 0x40]

/-- Glyphs 8 to F of the font table (R36). -/
def fontHigh : List Byte :=
  [0xF0, 0x90, 0xF0, 0x90, 0xF0,  0xF0, 0x90, 0xF0, 0x10, 0xF0,
   0xF0, 0x90, 0xF0, 0x90, 0x90,  0xE0, 0x90, 0xE0, 0x90, 0xE0,
   0xF0, 0x80, 0x80, 0x80, 0xF0,  0xE0, 0x90, 0x90, 0x90, 0xE0,
   0xF0, 0x80, 0xF0, 0x80, 0xF0,  0xF0, 0x80, 0xF0, 0x80, 0x80]

/-- The built-in font table: 16 glyphs of 5 bytes at addresses 0 to 79 (R36). -/
def fontTable : List Byte := fontLow ++ fontHigh

/-- The reset contents of memory, and so what an unlisted address reads as: the font table at 0 to 79
and 0 elsewhere (R17, R24). -/
def Memory.initial (a : Nat) : Byte := fontTable.getD a 0#8

/-- The byte listed at `a`, or the reset contents. -/
def Memory.lookup : Memory → Nat → Byte
  | [], a => Memory.initial a
  | (b, v) :: rest, a => if b = a then v else Memory.lookup rest a

/-- List the byte `v` at `a`, keeping the addresses rising; a byte equal to the reset contents is not
listed. -/
def Memory.insert : Memory → Nat → Byte → Memory
  | [], a, v => if v = Memory.initial a then [] else [(a, v)]
  | (b, u) :: rest, a, v =>
    if a < b then (if v = Memory.initial a then (b, u) :: rest else (a, v) :: (b, u) :: rest)
    else if a = b then (if v = Memory.initial a then rest else (a, v) :: rest)
    else (b, u) :: Memory.insert rest a v

/-- The address presented to the memory array: reduced modulo 4096, never refused (R31). -/
def maskAddr (addr : Nat) : Nat := addr % Config.memSize

/-- `MemRead(addr, 1)` (R32): the byte at `addr mod 4096`, with no side effect. -/
def Memory.read (m : Memory) (addr : Nat) : Byte := Memory.lookup m (maskAddr addr)

/-- `MemWrite(addr, 1, v)` (R32): sets the byte at `addr mod 4096` and changes nothing else. -/
def Memory.write (m : Memory) (addr : Nat) (v : Byte) : Memory := Memory.insert m (maskAddr addr) v

/-- Write consecutive bytes upward from `addr`, each address masked separately (R31, R43). -/
def Memory.writeBytes (m : Memory) (addr : Nat) : List Byte → Memory
  | [] => m
  | b :: rest => Memory.writeBytes (Memory.write m addr b) (addr + 1) rest

/-- The canonical form: addresses below 4096 and strictly rising, no byte equal to the reset contents
listed (assumption 6).  Two memories of this form that read alike are the same list. -/
def Memory.wf : Memory → Bool
  | [] => true
  | (a, v) :: rest =>
    decide (a < Config.memSize) && decide (v ≠ Memory.initial a)
      && rest.all (fun c => decide (a < c.1)) && Memory.wf rest

end Sys2Proof.Machine
end

