-- ==== Sys2Proof/Machine/Ops.lean ====
section
/-! DEFINITION. The named operations over the state: the pseudocode primitives of spec 00_scope.md R8,
the call stack (10_state.md R14), the fault report (60_exceptions.md R143), the framebuffer pixel
(43_display.md R120), the inputs of the cycle (10_state.md R19, R20) and how an instruction ends. -/

namespace Sys2Proof.Machine

/-! ### Registers -/

/-- The flag register `VF`, register index F (R11). -/
def VF : RegIdx := 0xF#4

/-- `V[x]` (R8, R10). -/
def State.reg (s : State) (x : RegIdx) : Byte := s.v[x.toNat]'(x.isLt)

/-- `V[x] <- val` (R8, R10): every register can be written. -/
def State.setReg (s : State) (x : RegIdx) (val : Byte) : State :=
  { s with v := s.v.set x.toNat val x.isLt }

/-- `I <- val` (R12): all 16 bits are kept. -/
def State.setIndex (s : State) (val : Word) : State := { s with index := val }

/-- `pc <- target` (R13): all 16 bits are kept, and no alignment is checked (R34). -/
def State.setPc (s : State) (target : Word) : State := { s with pc := target }

/-- `DT <- val` (R15). -/
def State.setDt (s : State) (val : Byte) : State := { s with dt := val }

/-- `ST <- val` (R16). -/
def State.setSt (s : State) (val : Byte) : State := { s with st := val }

/-- `outcome <- t` (R72). -/
def State.setOutcome (s : State) (t : Transfer) : State := { s with outcome := some t }

/-! ### Memory -/

/-- `MemRead(addr, 1)` (R32). -/
def State.memRead (s : State) (addr : Nat) : Byte := Memory.read s.mem addr

/-- `MemWrite(addr, 1, val)` (R32). -/
def State.memWrite (s : State) (addr : Nat) (val : Byte) : State :=
  { s with mem := Memory.write s.mem addr val }

/-- A run of `MemWrite`s upward from `addr`, each address masked separately (R31, R43). -/
def State.writeRun (s : State) (addr : Nat) (bytes : List Byte) : State :=
  { s with mem := Memory.writeBytes s.mem addr bytes }

/-- `Fetch(PC)` (R33): the byte at PC supplies bits 15:8, the byte at PC + 1 bits 7:0; each address is
masked separately, and an odd PC is fetched like any other (R34). -/
def State.fetchWord (s : State) : Word :=
  wordOfBytes (s.memRead s.pc.toNat) (s.memRead (s.pc.toNat + 1))

/-- Store a word where `fetchWord` reads it. -/
def State.placeWord (s : State) (w : Word) : State := s.writeRun s.pc.toNat (bytesOfWord w)

/-! ### The end of an instruction -/

/-- The handler completes with a control-transfer outcome (R72).  The driver sets the outcome afresh
to normal before dispatch and a handler changes it at most once; here the handler states its outcome
once, at its end (assumption 13). -/
def complete (t : Transfer) (s : State) : Result := .next (s.setOutcome t)

/-- A conditional skip (R72): the outcome is skip or normal; PC is left to the driver. -/
def skipIf (c : Bool) (s : State) : Result := complete (if c then .skip else .normal) s

/-- `raise StackFault(kind)` (R74, R143): the cycle is abandoned and the fault reported to the host;
nothing is saved and control goes nowhere, so the state stays the one the cycle began with.  There is
no return from it (R146). -/
def raise (f : Fault) : Result := .fault f

/-- The code of a fault (R140): overflow 1, underflow 2. -/
def Fault.code : Fault → Nat
  | .stackOverflow => 1
  | .stackUnderflow => 2

/-! ### The call stack (R14) -/

/-- The state after a push with room: `STACK[SP]` written, then `SP` incremented (R14). -/
def State.push (s : State) (ret : Word) (h : s.sp.toNat < 16) : State :=
  { s with stack := s.stack.set s.sp.toNat ret h, sp := s.sp + 1#5 }

/-- The state after a pop: `SP` decremented; the popped entry keeps its value (R14). -/
def State.pop (s : State) : State := { s with sp := s.sp - 1#5 }

/-- A push: with room, the push is done and `k` goes on; `SP = 16` raises the overflow fault (R14,
R141); an `SP` above 16 has no meaning (assumption 5). -/
def pushThen (s : State) (ret : Word) (k : State → Result) : Result :=
  if h : s.sp.toNat < 16 then k (s.push ret h)
  else if s.sp = 16#5 then raise .stackOverflow
  else .refused .stackCountOutOfRange

/-- A pop: `SP = 0` raises the underflow fault (R14, R142); otherwise `k` goes on with the top entry
`STACK[SP - 1]`; an `SP` above 16 has no meaning (assumption 5). -/
def popThen (s : State) (k : Word → State → Result) : Result :=
  if s.sp = 0#5 then raise .stackUnderflow
  else if h : s.sp.toNat - 1 < 16 then k s.stack[s.sp.toNat - 1] s.pop
  else .refused .stackCountOutOfRange

/-! ### The framebuffer (R120) -/

/-- The pixel in row `y`, column `x`, each coordinate reduced modulo the grid size (R120). -/
def Framebuffer.pixel (f : Framebuffer) (y x : Nat) : Bool :=
  (f[y % 32]'(Nat.mod_lt _ (by decide))).getLsbD (x % 64)

/-- Flip the pixel in row `y`, column `x`, each coordinate reduced modulo the grid size (R120, R122). -/
def Framebuffer.flip (f : Framebuffer) (y x : Nat) : Framebuffer :=
  f.set (y % 32) ((f[y % 32]'(Nat.mod_lt _ (by decide))) ^^^ BitVec.twoPow 64 (x % 64))
    (Nat.mod_lt _ (by decide))

/-- The framebuffer with every pixel 0 (R121). -/
def Framebuffer.clear : Framebuffer := Vector.replicate 32 0#64

/-- `FB <- f` (R18). -/
def State.setFb (s : State) (f : Framebuffer) : State := { s with fb := f }

/-- `FB[y][x]` (R8). -/
def State.pixel (s : State) (y x : Nat) : Bool := Framebuffer.pixel s.fb y x

/-! ### The inputs of the cycle (R19, R20, assumption 1) -/

/-- The inputs of the coming cycle: the first scheduled ones, else the free values of this cycle. -/
def State.input (s : State) : Input :=
  match s.inputs with
  | inp :: _ => inp
  | [] => { keys := Config.freeKeys s.cycle, rand := Config.freeRand s.cycle }

/-- `key[k]` as sampled in this cycle (R8, R19). -/
def State.key (s : State) (k : Nat) : Bool := s.input.keys.getLsbD k

/-- `rand` as sampled in this cycle (R8, R20). -/
def State.rand (s : State) : Byte := s.input.rand

/-- The inputs of this cycle are spent; the next cycle has inputs of its own (R19, R20). -/
def State.nextInput (s : State) : State := { s with inputs := s.inputs.tail, cycle := s.cycle + 1 }

end Sys2Proof.Machine
end

