-- ==== Sys2Proof/Machine/Operands.lean ====
section
/-! DEFINITION. The operand forms: immediates (spec 30_encoding.md R49), the one addressing mode
(42_index_memory.md), the masked key and digit numbers, the BCD digits, the block of registers and
the sprite rows. -/

namespace Sys2Proof.Machine

/-- `zext_16(NNN)` (R49). -/
def addrImm (nnn : Addr) : Word := nnn.setWidth 16

/-- `zext_16(V[x])` (R111, R78). -/
def State.regWide (s : State) (x : RegIdx) : Word := (s.reg x).setWidth 16

/-- The address `I + k` of the only addressing mode, "byte at `(I + k) mod 4096`": the reduction is
the memory's own, byte by byte (R31). -/
def State.indexed (s : State) (k : Nat) : Nat := s.index.toNat + k

/-- `V[x] & 0x0F`: the number of a key (R130) or of a hexadecimal digit (R112), 0 to 15. -/
def State.regNibble (s : State) (x : RegIdx) : Nat := (s.reg x &&& 0x0F#8).toNat

/-- `5 * d`: the address of the glyph of digit `d` (R112). -/
def glyphAddr (d : Nat) : Word := BitVec.ofNat 16 (5 * d)

/-- The three decimal digits of a byte, hundreds first (R113). -/
def bcdDigits (a : Byte) : List Byte :=
  [BitVec.ofNat 8 (a.toNat / 100), BitVec.ofNat 8 (a.toNat / 10 % 10), BitVec.ofNat 8 (a.toNat % 10)]

/-- `V[0]` to `V[count - 1]`, in ascending order (R114). -/
def State.regBlock (s : State) (count : Nat) : List Byte :=
  (List.range count).map (fun i => s.reg (BitVec.ofNat 4 i))

/-- The number of registers of the block `V[0]` to `V[x]`, both ends included (R114, R115). -/
def blockCount (x : RegIdx) : Nat := x.toNat + 1

/-- The least pressed key of a list of candidates, tried in order (R132). -/
def State.firstPressed (s : State) : List Nat → Option Nat
  | [] => none
  | k :: rest => if s.key k then some k else State.firstPressed s rest

/-- The keys that end the key wait: 1 to 15, key 0 excluded (R132). -/
def waitKeys : List Nat := [1, 2, 3, 4, 5, 6, 7, 8, 9, 10, 11, 12, 13, 14, 15]

/-- The sprite bit of column `col`: bit 7 is column 0 (R122, decision D14). -/
def spriteBit (b : Byte) (col : Nat) : Bool := b.getLsbD (7 - col)

end Sys2Proof.Machine
end

