-- ==== Sys2Proof/Machine/Flags.lean ====
section
/-! DEFINITION. Every flag computation of the hardware (spec 10_state.md R11, 41_load_arith_logic.md
R90) and the one order of the two writes of a flag-defining instruction (R9, R90). -/

namespace Sys2Proof.Machine

/-- A flag value: exactly 0 or 1 in all 8 bits (R11). -/
def flagByte (b : Bool) : Byte := if b then 1#8 else 0#8

/-- Carry out of `a + b`: the exact sum exceeds 255 (R97). -/
def carryFlag (a b : Byte) : Byte := flagByte (decide (255 < a.toNat + b.toNat))

/-- NOT borrow of `a - b`: `a >= b` (R98, R100). -/
def notBorrowFlag (a b : Byte) : Byte := flagByte (decide (b.toNat ≤ a.toNat))

/-- The bit a right shift by one moves out: bit 0 (R99). -/
def shiftedOutRight (a : Byte) : Byte := flagByte (a.getLsbD 0)

/-- The bit a left shift by one moves out: bit 7 (R101). -/
def shiftedOutLeft (a : Byte) : Byte := flagByte (a.getLsbD 7)

/-- The two writes of a flag-defining ALU instruction: `VF` first, then `V[x]`, so that with `x = F`
the result remains (R9, R90, decision D7). -/
def State.setFlagThenReg (s : State) (x : RegIdx) (flag result : Byte) : State :=
  (s.setReg VF flag).setReg x result

end Sys2Proof.Machine
end

