-- ==== Sys2Proof/Machine/Alu.lean ====
section
/-! DEFINITION. The load, arithmetic, logic, shift and random instructions (spec
41_load_arith_logic.md R90 to R102): 8-bit unsigned, results modulo 256, outcome normal. -/

namespace Sys2Proof.Machine

/-- `LD Vx, kk` (R91). -/
def execLdImm (x : RegIdx) (kk : Byte) (s : State) : Result := complete .normal (s.setReg x kk)

/-- `ADD Vx, kk` (R92): no flag. -/
def execAddImm (x : RegIdx) (kk : Byte) (s : State) : Result :=
  complete .normal (s.setReg x (s.reg x + kk))

/-- `LD Vx, Vy` (R93). -/
def execLdReg (x y : RegIdx) (s : State) : Result := complete .normal (s.setReg x (s.reg y))

/-- `OR Vx, Vy` (R94): the flag register is unaffected. -/
def execOr (x y : RegIdx) (s : State) : Result :=
  complete .normal (s.setReg x (s.reg x ||| s.reg y))

/-- `AND Vx, Vy` (R95): the flag register is unaffected. -/
def execAnd (x y : RegIdx) (s : State) : Result :=
  complete .normal (s.setReg x (s.reg x &&& s.reg y))

/-- `XOR Vx, Vy` (R96): the flag register is unaffected. -/
def execXor (x y : RegIdx) (s : State) : Result :=
  complete .normal (s.setReg x (s.reg x ^^^ s.reg y))

/-- `ADD Vx, Vy` (R97): `VF` is the carry. -/
def execAddReg (x y : RegIdx) (s : State) : Result :=
  complete .normal (s.setFlagThenReg x (carryFlag (s.reg x) (s.reg y)) (s.reg x + s.reg y))

/-- `SUB Vx, Vy` (R98): `VF` is NOT borrow. -/
def execSubReg (x y : RegIdx) (s : State) : Result :=
  complete .normal (s.setFlagThenReg x (notBorrowFlag (s.reg x) (s.reg y)) (s.reg x - s.reg y))

/-- `SHR Vx` (R99): logical, in place; `V[Y]` is neither read nor written. -/
def execShr (x _y : RegIdx) (s : State) : Result :=
  complete .normal (s.setFlagThenReg x (shiftedOutRight (s.reg x)) (s.reg x >>> 1))

/-- `SUBN Vx, Vy` (R100): `V[Y] - V[X]` into X; `VF` is NOT borrow. -/
def execSubnReg (x y : RegIdx) (s : State) : Result :=
  complete .normal (s.setFlagThenReg x (notBorrowFlag (s.reg y) (s.reg x)) (s.reg y - s.reg x))

/-- `SHL Vx` (R101): in place; `V[Y]` is neither read nor written. -/
def execShl (x _y : RegIdx) (s : State) : Result :=
  complete .normal (s.setFlagThenReg x (shiftedOutLeft (s.reg x)) (s.reg x <<< 1))

/-- `RND Vx, kk` (R102): the random input of this cycle, masked. -/
def execRnd (x : RegIdx) (kk : Byte) (s : State) : Result :=
  complete .normal (s.setReg x (s.rand &&& kk))

end Sys2Proof.Machine
end

