-- ==== Sys2Proof/Machine/Control.lean ====
section
/-! DEFINITION. The control-transfer instructions and the unrecognized no-op (spec
40_cycle_and_control_transfer.md R75 to R84). -/

namespace Sys2Proof.Machine

/-- The return address of a call: `(PC + 2) mod 65536` (R76, conflict C1). -/
def State.returnAddr (s : State) : Word := s.pc + 2#16

/-- `JP nnn` (R75). -/
def execJp (nnn : Addr) (s : State) : Result := complete .transferred (s.setPc (addrImm nnn))

/-- `CALL nnn` (R76): the overflow check, the push of the return address, the jump. -/
def execCall (nnn : Addr) (s : State) : Result :=
  pushThen s s.returnAddr (fun t => complete .transferred (t.setPc (addrImm nnn)))

/-- `RET` (R77): the underflow check, the pop into PC. -/
def execRet (s : State) : Result :=
  popThen s (fun target t => complete .transferred (t.setPc target))

/-- `JP V0, nnn` (R78): a 16-bit sum, not masked; the offset register is always `V[0]`. -/
def execJpV0 (nnn : Addr) (s : State) : Result :=
  complete .transferred (s.setPc (addrImm nnn + s.regWide 0#4))

/-- `SE Vx, kk` (R79). -/
def execSeImm (x : RegIdx) (kk : Byte) (s : State) : Result := skipIf (decide (s.reg x = kk)) s

/-- `SNE Vx, kk` (R80). -/
def execSneImm (x : RegIdx) (kk : Byte) (s : State) : Result := skipIf (decide (s.reg x ≠ kk)) s

/-- `SE Vx, Vy` (R81); the low nibble of the word is ignored (R56 a). -/
def execSeReg (x y : RegIdx) (_n : Nibble) (s : State) : Result :=
  skipIf (decide (s.reg x = s.reg y)) s

/-- `SNE Vx, Vy` (R82); the low nibble of the word is ignored (R56 a). -/
def execSneReg (x y : RegIdx) (_n : Nibble) (s : State) : Result :=
  skipIf (decide (s.reg x ≠ s.reg y)) s

/-- An unrecognized word of family 0x0: a no-op (R57, R83). -/
def execNopSys (_nnn : Addr) (s : State) : Result := complete .normal s

/-- An unrecognized word of family 0x8: a no-op (R57, R83). -/
def execNopAlu (_x _y : RegIdx) (_n : Nibble) (s : State) : Result := complete .normal s

/-- An unrecognized word of family 0xE: a no-op (R57, R83). -/
def execNopKey (_x : RegIdx) (_kk : Byte) (s : State) : Result := complete .normal s

/-- An unrecognized word of family 0xF: a no-op (R57, R83). -/
def execNopMisc (_x : RegIdx) (_kk : Byte) (s : State) : Result := complete .normal s

end Sys2Proof.Machine
end

