-- ==== Sys2Proof/Machine/Display.lean ====
section
/-! DEFINITION. The display instructions (spec 43_display.md R120 to R122): outcome normal. -/

namespace Sys2Proof.Machine

/-- `CLS` (R121). -/
def execCls (s : State) : Result := complete .normal (s.setFb Framebuffer.clear)

/-- One sprite pixel (R122): a set bit flips its pixel and records a collision when the pixel was 1. -/
def drawPixel (bit : Bool) (y x : Nat) (acc : Framebuffer × Bool) : Framebuffer × Bool :=
  if bit then (Framebuffer.flip acc.1 y x, acc.2 || Framebuffer.pixel acc.1 y x) else acc

/-- The 8 columns of one sprite row, from column 0 (R122). -/
def drawRow (b : Byte) (y x : Nat) (acc : Framebuffer × Bool) : Framebuffer × Bool :=
  (List.range 8).foldl (fun a col => drawPixel (spriteBit b col) y (x + col) a) acc

/-- The `n` rows of a sprite whose bytes start at address `base`, from row 0 (R122). -/
def drawRows (m : Memory) (base y x n : Nat) (f : Framebuffer) : Framebuffer × Bool :=
  (List.range n).foldl (fun a row => drawRow (Memory.read m (base + row)) (y + row) x a) (f, false)

/-- `DRW Vx, Vy, n` (R122): the coordinates are read before `VF` is written. -/
def execDraw (x y : RegIdx) (n : Nibble) (s : State) : Result :=
  let drawn := drawRows s.mem (s.indexed 0) (s.reg y).toNat (s.reg x).toNat n.toNat s.fb
  complete .normal ((s.setFb drawn.1).setReg VF (flagByte drawn.2))

end Sys2Proof.Machine
end

