-- ==== Sys2Proof/Machine/IndexMemory.lean ====
section
/-! DEFINITION. The index-register and memory instructions (spec 42_index_memory.md R110 to R115):
outcome normal, no flag, `I` never changed by an access. -/

namespace Sys2Proof.Machine

/-- `LD I, nnn` (R110). -/
def execLdI (nnn : Addr) (s : State) : Result := complete .normal (s.setIndex (addrImm nnn))

/-- `ADD I, Vx` (R111): a 16-bit sum, no flag. -/
def execAddI (x : RegIdx) (s : State) : Result :=
  complete .normal (s.setIndex (s.index + s.regWide x))

/-- `LD F, Vx` (R112): the glyph address of the low nibble of `V[x]` (decision D10). -/
def execLdF (x : RegIdx) (s : State) : Result :=
  complete .normal (s.setIndex (glyphAddr (s.regNibble x)))

/-- `LD B, Vx` (R113): the three decimal digits at `I`, `I + 1`, `I + 2`. -/
def execLdB (x : RegIdx) (s : State) : Result :=
  complete .normal (s.writeRun (s.indexed 0) (bcdDigits (s.reg x)))

/-- `LD [I], Vx` (R114): `V[0]` to `V[x]` at `I` to `I + x`. -/
def execStRegs (x : RegIdx) (s : State) : Result :=
  complete .normal (s.writeRun (s.indexed 0) (s.regBlock (blockCount x)))

/-- Load `V[i]` to `V[i + n - 1]` from `I + i` upward, in ascending order (R115). -/
def loadRegsFrom (s : State) (i : Nat) : Nat → State
  | 0 => s
  | n + 1 => loadRegsFrom (s.setReg (BitVec.ofNat 4 i) (s.memRead (s.indexed i))) (i + 1) n

/-- `LD Vx, [I]` (R115): `V[0]` to `V[x]` from `I` to `I + x`. -/
def execLdRegs (x : RegIdx) (s : State) : Result :=
  complete .normal (loadRegsFrom s 0 (blockCount x))

end Sys2Proof.Machine
end

