-- ==== Sys2Proof/Machine/KeysTimers.lean ====
section
/-! DEFINITION. The key and timer instructions (spec 44_keys_timers.md R130 to R135). -/

namespace Sys2Proof.Machine

/-- `SKP Vx` (R130): the key number is the low nibble of `V[x]` (decision D11). -/
def execSkp (x : RegIdx) (s : State) : Result := skipIf (s.key (s.regNibble x)) s

/-- `SKNP Vx` (R131). -/
def execSknp (x : RegIdx) (s : State) : Result := skipIf (!s.key (s.regNibble x)) s

/-- The outcome of the key wait: normal with a key, transferred (PC not written) without (R132). -/
def waitOutcome : Option Nat → Transfer
  | some _ => .normal
  | none => .transferred

/-- The destination of the key wait holds the key's number; a waiting cycle writes nothing (R132). -/
def State.setKeyReg (s : State) (x : RegIdx) : Option Nat → State
  | some k => s.setReg x (BitVec.ofNat 8 k)
  | none => s

/-- `LD Vx, K` (R132): the least pressed key of 1 to 15 ends the wait (decision D12); without one the
cycle is a complete cycle that leaves PC where it is. -/
def execLdVxK (x : RegIdx) (s : State) : Result :=
  complete (waitOutcome (s.firstPressed waitKeys)) (s.setKeyReg x (s.firstPressed waitKeys))

/-- `LD Vx, DT` (R133): the value before this cycle's tick. -/
def execLdVxDt (x : RegIdx) (s : State) : Result := complete .normal (s.setReg x s.dt)

/-- `LD DT, Vx` (R134): the tick of the same cycle follows. -/
def execLdDtVx (x : RegIdx) (s : State) : Result := complete .normal (s.setDt (s.reg x))

/-- `LD ST, Vx` (R135): the tick of the same cycle follows. -/
def execLdStVx (x : RegIdx) (s : State) : Result := complete .normal (s.setSt (s.reg x))

end Sys2Proof.Machine
end

