-- ==== Sys2Proof/Machine/Cycle.lean ====
section
/-! DEFINITION. The cycle driver (spec 40_cycle_and_control_transfer.md R70 to R74): what a step does
around the handler. -/

namespace Sys2Proof.Machine

/-- How far PC advances for an outcome (R72); the outcome before the first cycle advances nothing. -/
def advanceOf : Option Transfer → Word
  | some .normal => 2#16
  | some .skip => 4#16
  | some .transferred => 0#16
  | none => 0#16

/-- Phase 3, first half: PC advances per the outcome, modulo 65536 (R70, R72). -/
def State.advancePc (s : State) : State := s.setPc (s.pc + advanceOf s.outcome)

/-- One tick of a timer: down by 1, floor 0 (R15, R73). -/
def tick (t : Byte) : Byte := if t = 0#8 then 0#8 else t - 1#8

/-- Phase 3, second half: both timers tick (R73). -/
def State.tickTimers (s : State) : State := (s.setDt (tick s.dt)).setSt (tick s.st)

/-- The end of a cycle: PC, then the timers, then the next cycle's inputs (R70). -/
def State.endCycle (s : State) : State := s.advancePc.tickTimers.nextInput

/-- Phase 3 follows a handler that completed; a fault ends the cycle with the state it began with, no
tick (R74, R143). -/
def endOfCycle : Result → Result
  | .next s => .next s.endCycle
  | .fault f => .fault f
  | .refused r => .refused r

/-- No cycle runs before the first `initialize` (R164). -/
def whenInitialized (s : State) (r : Result) : Result :=
  if s.initialized then r else .refused .uninitialized

/-- The instruction of this cycle: the word at PC, as it is when the cycle begins (R70, R71). -/
def State.current (s : State) : Instr := decodeWord s.fetchWord

end Sys2Proof.Machine
end

