-- ==== Sys2Proof/Machine/HostInterface.lean ====
section
/-! DEFINITION. The host's operations between cycles (spec 70_reset_and_hazards.md R160 to R165) and the
read-only outputs (10_state.md R22). -/

namespace Sys2Proof.Machine

/-- `initialize()` (R160, R161): a full reset; nothing of the previous state survives.  The inputs are
not state of the core: the schedule and the cycle number go on (assumption 14). -/
def hostInitialize (s : State) : State :=
  { State.reset with inputs := s.inputs, cycle := s.cycle }

/-- `loadProgram(bytes)` (R162): all or nothing, from address 512, nothing else changed; no meaning
before `initialize` (R164). -/
def loadProgram (image : List Byte) (s : State) : Host.Outcome State LoadError Refusal :=
  if s.initialized then
    if Config.maxImage < image.length then .fault .imageTooLong
    else .next (s.writeRun Config.progBase image)
  else .refused .uninitialized

/-- The host presents the inputs of the next cycle (R19, R20, R165). -/
def present (keys : BitVec 16) (rand : Byte) (s : State) : State :=
  { s with inputs := { keys := keys, rand := rand } :: s.inputs }

/-- `soundTimerNonZero()`, the output `sound_active`: `ST != 0` (R22). -/
def State.soundActive (s : State) : Bool := decide (s.st ≠ 0#8)

/-- `framebuffer()`, the read-only port: the rows of pixels (R22). -/
def State.framebuffer (s : State) : Framebuffer := s.fb

end Sys2Proof.Machine
end

