-- ==== Sys2Proof/Machine/Step.lean ====
section
/-! DEFINITION. One step: one cycle of the core (spec 40_cycle_and_control_transfer.md R70), and the
placing of a word where the next step fetches it. -/

namespace Sys2Proof.Machine

/-- One cycle (R70): fetch and decode at the start-of-cycle state, execute one handler, end the cycle. -/
def step (s : State) : Host.Outcome State Fault Refusal :=
  whenInitialized s (endOfCycle (exec s.current s))

/-- `step(key, rand)` as the host calls it (R70, R165): one cycle with these inputs. -/
def stepWith (keys : BitVec 16) (rand : Byte) (s : State) : Host.Outcome State Fault Refusal :=
  step (present keys rand s)

/-- `s` with a table word stored at PC, high byte first, where the next step fetches it (R33).  It
stands for the host's `loadProgram` (assumption 8). -/
def State.withFetchWord (s : State) (nbits w : Nat) : State := s.placeWord (tableWord nbits w)

end Sys2Proof.Machine
end

