-- ==== Sys2Proof/Machine/Run.lean ====
section
/-! DEFINITION. The end of a run (spec 70_reset_and_hazards.md R169, decision D24).  The hardware has no
halt and `step` can always be called again, so the end is the model's own, outside the hardware: both
definitions that R169 names are here, and neither is used by `step` (assumption 18). -/

namespace Sys2Proof.Machine

/-- The next cycle is a jump to its own address (R169 b): the word at `PC = p` is `1NNN` with
`NNN = p mod 4096`, and `p < 4096`. -/
abbrev atJumpToSelf (s : State) : Prop :=
  s.pc.toNat < 4096 ∧ s.current = .jp (BitVec.ofNat 12 s.pc.toNat)

/-- The end of a run by definition (b): a core that can be stepped has come to a jump to self (R169). -/
abbrev endsRun (s : State) : Prop := s.initialized = true ∧ atJumpToSelf s

/-- A run by definition (a): `n` steps, after which it ends (R169).  A step that does not complete stops
the run short with its own reason; that is no end of a run. -/
def runSteps : Nat → State → Result
  | 0, s => .next s
  | n + 1, s =>
    match step s with
    | .next t => runSteps n t
    | .fault f => .fault f
    | .refused r => .refused r

/-- A run by definition (b): the first state at a jump to self within `n` steps (R169); none when the
run has not come to one, be it because a step did not complete or because it still goes on. -/
def runToEnd : Nat → State → Option State
  | 0, s => if endsRun s then some s else none
  | n + 1, s =>
    if endsRun s then some s
    else
      match step s with
      | .next t => runToEnd n t
      | .fault _ => none
      | .refused _ => none

end Sys2Proof.Machine
end

