-- ==== Sys2Proof/Safety.lean ====
section
/-! DEFINITION. The terms claims are stated in: the invariant of the reachable states, the ways a step
can stop, the waiting state of spec 44_keys_timers.md R132, and what an instruction leaves
unchanged, piece of state by piece of state. -/

namespace Sys2Proof.Machine

/-- The invariant of the reachable states: the memory is in canonical form (assumption 6) and at most
16 stack entries are in use (R14, R26). -/
abbrev Inv (s : State) : Prop := Memory.wf s.mem = true ∧ s.sp.toNat ≤ 16

/-- The next cycle is a CALL with a full stack (R141). -/
abbrev overflows (s : State) : Prop := s.current.opClass = .call ∧ s.sp = 16#5

/-- The next cycle is a RET with an empty stack (R142). -/
abbrev underflows (s : State) : Prop := s.current.opClass = .ret ∧ s.sp = 0#5

/-- The next cycle is a key wait and none of the keys 1 to 15 is pressed (R132). -/
abbrev waitsForKey (s : State) : Prop :=
  s.current.opClass = .ldVxK ∧ ∀ k, 1 ≤ k → k ≤ 15 → s.key k = false

/-! ### What stays as it was -/

/-- Every general register outside `written` is unchanged. -/
def sameRegsExcept (written : RegIdx → Prop) (s t : State) : Prop :=
  ∀ r : RegIdx, ¬ written r → t.reg r = s.reg r

/-- Every general register is unchanged. -/
def sameRegs (s t : State) : Prop := ∀ r : RegIdx, t.reg r = s.reg r

/-- Every byte of memory reads as before. -/
def sameMemory (s t : State) : Prop := ∀ a : Nat, t.memRead a = s.memRead a

/-- Every pixel is unchanged. -/
def sameScreen (s t : State) : Prop := ∀ y x : Nat, t.pixel y x = s.pixel y x

/-- The index register is unchanged. -/
def sameIndex (s t : State) : Prop := t.index = s.index

/-- PC is unchanged: the handler leaves it to the cycle driver (R72). -/
def samePc (s t : State) : Prop := t.pc = s.pc

/-- The stack count and every stack entry are unchanged. -/
def sameStack (s t : State) : Prop := t.sp = s.sp ∧ ∀ (k : Nat) (h : k < 16), t.stack[k] = s.stack[k]

/-- Both timers are unchanged: the handler leaves them to the cycle driver (R73). -/
def sameTimers (s t : State) : Prop := t.dt = s.dt ∧ t.st = s.st

/-- What lies outside the architectural state is unchanged: the inputs and the initialized mark. -/
def sameHost (s t : State) : Prop :=
  t.initialized = s.initialized ∧ t.inputs = s.inputs ∧ t.cycle = s.cycle

/-- Everything but the general registers and the outcome is unchanged. -/
def onlyRegsChange (s t : State) : Prop :=
  sameIndex s t ∧ samePc s t ∧ sameStack s t ∧ sameTimers s t ∧ sameMemory s t ∧ sameScreen s t
    ∧ sameHost s t

/-- Everything but PC, the stack and the outcome is unchanged. -/
def onlyControlChanges (s t : State) : Prop :=
  sameRegs s t ∧ sameIndex s t ∧ sameTimers s t ∧ sameMemory s t ∧ sameScreen s t ∧ sameHost s t

/-- Everything but the index register and the outcome is unchanged. -/
def onlyIndexChanges (s t : State) : Prop :=
  sameRegs s t ∧ samePc s t ∧ sameStack s t ∧ sameTimers s t ∧ sameMemory s t ∧ sameScreen s t
    ∧ sameHost s t

/-- Everything but memory and the outcome is unchanged. -/
def onlyMemoryChanges (s t : State) : Prop :=
  sameRegs s t ∧ sameIndex s t ∧ samePc s t ∧ sameStack s t ∧ sameTimers s t ∧ sameScreen s t
    ∧ sameHost s t

/-- Everything but the framebuffer, the general registers and the outcome is unchanged. -/
def onlyScreenAndRegsChange (s t : State) : Prop :=
  sameIndex s t ∧ samePc s t ∧ sameStack s t ∧ sameTimers s t ∧ sameMemory s t ∧ sameHost s t

/-- Everything but the timers and the outcome is unchanged. -/
def onlyTimersChange (s t : State) : Prop :=
  sameRegs s t ∧ sameIndex s t ∧ samePc s t ∧ sameStack s t ∧ sameMemory s t ∧ sameScreen s t
    ∧ sameHost s t

/-- Everything but the outcome is unchanged. -/
def nothingChanges (s t : State) : Prop := sameRegs s t ∧ onlyRegsChange s t

end Sys2Proof.Machine
end

