-- ==== Sys2Proof/Certificates/Slice0/Obligations.lean ====
section
/-! DEFINITION. The statements for the provers, in the order of OBLIGATIONS.json.  A statement about an
instruction's effect also gives the words that encode it (30_encoding.md R62), the outcome the rule
names, and everything the instruction leaves unchanged. -/

open Sys2Proof Sys2Proof.Machine

namespace Sys2Proof.Claims

/-- The word `n` decodes to the instruction `i`. -/
def encodedAs (n : Nat) (i : Instr) : Prop := decodeWord (BitVec.ofNat 16 n) = i

/-- The handler's outcome is normal: it leaves PC alone and the cycle advances PC by 2 (R72). -/
def endsNormal (s t : State) : Prop :=
  t.outcome = some .normal ∧ t.pc = s.pc ∧ t.endCycle.pc = s.pc + 2#16

/-- The handler's outcome is skip: it leaves PC alone and the cycle advances PC by 4 (R72). -/
def endsSkip (s t : State) : Prop :=
  t.outcome = some .skip ∧ t.pc = s.pc ∧ t.endCycle.pc = s.pc + 4#16

/-- The handler's outcome is transferred: no advance follows and PC ends as `target` (R72). -/
def endsAt (target : Nat) (t : State) : Prop :=
  t.outcome = some .transferred ∧ t.pc.toNat = target ∧ t.endCycle.pc = t.pc

/-- Skip when the condition holds, normal when it does not; nothing else changes. -/
def skipsWhen (c : Prop) (s t : State) : Prop :=
  nothingChanges s t ∧ (c → endsSkip s t) ∧ (¬ c → endsNormal s t)

/-- Only register `x` changes, to `val`; the outcome is normal. -/
def writesOnly (x : RegIdx) (val : Nat) (s t : State) : Prop :=
  (t.reg x).toNat = val ∧ sameRegsExcept (· = x) s t ∧ onlyRegsChange s t ∧ endsNormal s t

/-- The two writes of a flag-defining ALU instruction: `x` holds the result; `VF` holds the flag when
`x` is another register; no other register changes; the outcome is normal. -/
def writesFlagged (x : RegIdx) (flag result : Nat) (s t : State) : Prop :=
  (t.reg x).toNat = result ∧ (x ≠ VF → (t.reg VF).toNat = flag)
    ∧ sameRegsExcept (fun r => r = x ∨ r = VF) s t ∧ onlyRegsChange s t ∧ endsNormal s t

/-- The bytes of a run, read back at the reduced addresses as at the unreduced ones, and every address
outside the run as before (R31: each address masked separately). -/
def storesRun (base : Nat) (count : Nat) (byte : Nat → Nat) (s t : State) : Prop :=
  (∀ k, k < count → (t.memRead ((base + k) % 4096)).toNat = byte k
      ∧ (t.memRead (base + k)).toNat = byte k)
    ∧ ∀ a, (∀ k, k < count → a % 4096 ≠ (base + k) % 4096) → t.memRead a = s.memRead a

/-- The decimal digit of `a` that `FX33` stores at offset `k`, hundreds first (R113). -/
def decimalDigit (a k : Nat) : Nat := if k = 0 then a / 100 else if k = 1 then a / 10 % 10 else a % 10

/-- The byte of the fetched word at PC (`b = 0`) or at PC + 1 (`b = 1`), from R33. -/
def fetchedByte (s : State) (b : Nat) : Nat :=
  if b = 0 then s.fetchWord.toNat / 256 else s.fetchWord.toNat % 256

/-- The fetch after a store of `count` bytes from `I` upward, by a cycle that began in `s` and ended in
`u`: each byte of the following word is the stored one where the run covers it and the old one where
it does not (R40). -/
def nextFetchSees (count : Nat) (byte : Nat → Nat) (s u : State) : Prop :=
  ∀ b, b < 2 →
    (∀ k, k < count → (s.index.toNat + k) % 4096 = (s.pc.toNat + 2 + b) % 4096 →
        fetchedByte u b = byte k)
      ∧ ((∀ k, k < count → (s.index.toNat + k) % 4096 ≠ (s.pc.toNat + 2 + b) % 4096) →
        fetchedByte u b = (s.memRead (s.pc.toNat + 2 + b)).toNat)

/-- The sprite at `V[x]`, `V[y]` with `n` rows from `I` has a set bit that falls on the pixel in row
`py`, column `px` (R122). -/
def spriteCovers (s : State) (x y : RegIdx) (n : Nibble) (py px : Nat) : Prop :=
  ∃ row col : Nat, row < n.toNat ∧ col < 8
    ∧ (s.memRead (s.index.toNat + row)).getLsbD (7 - col) = true
    ∧ py = ((s.reg y).toNat + row) % 32 ∧ px = ((s.reg x).toNat + col) % 64

/-- The general registers an instruction may write, from the tables of R10 and R11. -/
def mayWriteReg (r : RegIdx) : Instr → Prop
  | .ldImm x _ => r = x
  | .addImm x _ => r = x
  | .ldReg x _ => r = x
  | .orReg x _ => r = x
  | .andReg x _ => r = x
  | .xorReg x _ => r = x
  | .addReg x _ => r = x ∨ r = VF
  | .subReg x _ => r = x ∨ r = VF
  | .shr x _ => r = x ∨ r = VF
  | .subnReg x _ => r = x ∨ r = VF
  | .shl x _ => r = x ∨ r = VF
  | .rnd x _ => r = x
  | .draw _ _ _ => r = VF
  | .ldVxDt x => r = x
  | .ldVxK x => r = x
  | .ldRegs x => r.toNat ≤ x.toNat
  | .cls => False
  | .ret => False
  | .jp _ => False
  | .call _ => False
  | .seImm _ _ => False
  | .sneImm _ _ => False
  | .seReg _ _ _ => False
  | .sneReg _ _ _ => False
  | .ldI _ => False
  | .jpV0 _ => False
  | .skp _ => False
  | .sknp _ => False
  | .ldDtVx _ => False
  | .ldStVx _ => False
  | .addI _ => False
  | .ldF _ => False
  | .ldB _ => False
  | .stRegs _ => False
  | .nopSys _ => False
  | .nopAlu _ _ _ => False
  | .nopKey _ _ => False
  | .nopMisc _ _ => False

/-- Two states that differ at most in bits 15:12 of `I`, of PC and of the stack entries (R12, R13). -/
def agreeBelow4096 (s t : State) : Prop :=
  t.v = s.v ∧ t.index.toNat % 4096 = s.index.toNat % 4096 ∧ t.pc.toNat % 4096 = s.pc.toNat % 4096
    ∧ t.sp = s.sp ∧ (∀ (k : Nat) (h : k < 16), t.stack[k].toNat % 4096 = s.stack[k].toNat % 4096)
    ∧ t.dt = s.dt ∧ t.st = s.st ∧ t.mem = s.mem ∧ t.fb = s.fb ∧ t.outcome = s.outcome
    ∧ t.initialized = s.initialized ∧ t.inputs = s.inputs ∧ t.cycle = s.cycle

/-- The font table as R36 prints it, glyph by glyph. -/
def fontOfR36 : List (List Nat) :=
  [[0xF0, 0x90, 0x90, 0x90, 0xF0], [0x20, 0x60, 0x20, 0x20, 0x70],
   [0xF0, 0x10, 0xF0, 0x80, 0xF0], [0xF0, 0x10, 0xF0, 0x10, 0xF0],
   [0x90, 0x90, 0xF0, 0x10, 0x10], [0xF0, 0x80, 0xF0, 0x10, 0xF0],
   [0xF0, 0x80, 0xF0, 0x90, 0xF0], [0xF0, 0x10, 0x20, 0x40, 0x40],
   [0xF0, 0x90, 0xF0, 0x90, 0xF0], [0xF0, 0x90, 0xF0, 0x10, 0xF0],
   [0xF0, 0x90, 0xF0, 0x90, 0x90], [0xE0, 0x90, 0xE0, 0x90, 0xE0],
   [0xF0, 0x80, 0x80, 0x80, 0xF0], [0xE0, 0x90, 0x90, 0x90, 0xE0],
   [0xF0, 0x80, 0xF0, 0x80, 0xF0], [0xF0, 0x80, 0xF0, 0x80, 0x80]]

/-- The state the spec gives a core after `initialize` (R24, R160), field by field. -/
def isResetState (s : State) : Prop :=
  (∀ r : RegIdx, s.reg r = 0#8) ∧ s.index = 0#16 ∧ s.pc.toNat = 512 ∧ s.sp = 0#5
    ∧ (∀ (k : Nat) (h : k < 16), s.stack[k] = 0#16) ∧ s.dt = 0#8 ∧ s.st = 0#8
    ∧ (∀ y x : Nat, s.pixel y x = false)
    ∧ (∀ a : Nat, a < 80 → (s.memRead a).toNat = (fontOfR36.flatten).getD a 0)
    ∧ (∀ a : Nat, 80 ≤ a → a < 4096 → s.memRead a = 0#8)
    ∧ s.soundActive = false ∧ s.outcome = none

end Sys2Proof.Claims

open Sys2Proof.Claims

/-! ### Reset, the cycle, the invariant -/

/-- What `initialize` leaves (R24): every register, timer, stack entry, pixel and byte. The mark
that refuses a step before the first `initialize` is the model's (log entry 4; R164 is decision
D22), the outcome field too (log entry 2), and the font bytes of R36 are the spec's general
knowledge (log entry 9). -/
def Obligations.ResetLeavesTheSpecState : Prop :=
  isResetState State.reset ∧ ∀ s : State, s.initialized = false → step s = .refused .uninitialized

/-- The invariant holds after reset (R26). The invariant is the spec's own inference (R26) and, for
the memory, the model's form (log entry 6). -/
def Obligations.ResetMeetsInv : Prop := Inv State.reset

/-- Every step keeps the invariant, from every state that has it (R14, R26). The memory's form is
the model's (log entry 6). -/
def Obligations.EveryStepKeepsInv : Prop := ∀ s t : State, Inv s → step s = .next t → Inv t

/-- R70, R71: a step is the handler of the instruction that the two bytes at PC encode, run on the
start-of-cycle state, followed by the end of the cycle (`State.endCycle`); a fault or a refusal of
the handler is the step's. R71 is the spec's own inference; the inputs and the initialized mark are
the model's (log entries 1 and 4). -/
def Obligations.StepRunsTheDecodedInstruction : Prop :=
  ∀ (s : State) (i : Instr), s.initialized = true → i.wellFormed = true →
    decodeBytes [s.memRead s.pc.toNat, s.memRead (s.pc.toNat + 1)] = .ok (i, []) →
    (∀ t, exec i s = .next t → step s = .next t.endCycle)
      ∧ (∀ f, exec i s = .fault f → step s = .fault f)
      ∧ (∀ r, exec i s = .refused r → step s = .refused r)

/-- What `State.endCycle` does (R70, R72, R73): PC advances by 2, 4 or 0 modulo 65536, each timer
counts down by one with floor 0, the cycle's input is spent (assumption 1), and nothing else changes. -/
def Obligations.EndOfCycleAdvancesPcAndTicks : Prop :=
  ∀ t : State,
    (t.outcome = some .normal → t.endCycle.pc.toNat = (t.pc.toNat + 2) % 65536)
      ∧ (t.outcome = some .skip → t.endCycle.pc.toNat = (t.pc.toNat + 4) % 65536)
      ∧ (t.outcome = some .transferred → t.endCycle.pc = t.pc)
      ∧ t.endCycle.dt.toNat = t.dt.toNat - 1 ∧ t.endCycle.st.toNat = t.st.toNat - 1
      ∧ sameRegs t t.endCycle ∧ sameIndex t t.endCycle ∧ sameStack t t.endCycle
      ∧ sameMemory t t.endCycle ∧ sameScreen t t.endCycle ∧ t.endCycle.outcome = t.outcome
      ∧ t.endCycle.initialized = t.initialized ∧ t.endCycle.inputs = t.inputs.tail
      ∧ t.endCycle.cycle = t.cycle + 1

/-- R164: before the first `initialize`, `step` and `loadProgram` have no meaning; after it they
have. R164 is the spec's decision D22; the mark that tells the two apart is the model's (log entry
4). -/
def Obligations.NothingRunsBeforeInitialize : Prop :=
  ∀ s : State,
    (s.initialized = false → step s = .refused .uninitialized
        ∧ ∀ image : List Byte, loadProgram image s = .refused .uninitialized)
      ∧ (hostInitialize s).initialized = true

/-- R140: a cycle of an initialized core ends normally but for a CALL with `SP = 16` (code 1) and a
RET with `SP = 0` (code 2), from every state with the invariant. The policy and the codes are the
spec's decision D5 (log entries 3 and 10). -/
def Obligations.OnlyStackFaultsStopACycle : Prop :=
  ∀ s : State, s.initialized = true → Inv s →
    (overflows s → step s = .fault .stackOverflow)
      ∧ (underflows s → step s = .fault .stackUnderflow)
      ∧ (¬ overflows s → ¬ underflows s → ∃ t, step s = .next t)
      ∧ Fault.code .stackOverflow = 1 ∧ Fault.code .stackUnderflow = 2

/-- R73: both timers tick on every cycle that does not fault, whatever the instruction, after the
handler: on the value `FX15` or `FX18` has just written, and after `FX07` has read `DT`. That the
tick happens on every kind of cycle is the spec's own inference in R73. -/
def Obligations.TimersTickOnEveryCycle : Prop :=
  ∀ s u : State, step s = .next u →
    (∀ x, s.current = .ldDtVx x → u.dt.toNat = (s.reg x).toNat - 1)
      ∧ (s.current.opClass ≠ .ldDtVx → u.dt.toNat = s.dt.toNat - 1)
      ∧ (∀ x, s.current = .ldStVx x → u.st.toNat = (s.reg x).toNat - 1)
      ∧ (s.current.opClass ≠ .ldStVx → u.st.toNat = s.st.toNat - 1)
      ∧ (∀ x, s.current = .ldVxDt x → u.reg x = s.dt)

/-- The table of R72: the outcome of every class, and that no handler but the four that set PC
changes it. R72 presets the outcome to normal before dispatch; that the handler states it once, at
its end, is the model's reading (log entry 13). -/
def Obligations.OutcomeOfEveryClass : Prop :=
  ∀ (i : Instr) (s t : State), exec i s = .next t →
    (i.opClass ∈ [OpClass.jp, .call, .ret, .jpV0] →
        t.outcome = some .transferred ∧ t.endCycle.pc = t.pc)
      ∧ (i.opClass ∈ [OpClass.seImm, .sneImm, .seReg, .sneReg, .skp, .sknp] →
        endsSkip s t ∨ endsNormal s t)
      ∧ (i.opClass = .ldVxK → (t.outcome = some .transferred ∧ t.pc = s.pc
          ∧ t.endCycle.pc = s.pc) ∨ endsNormal s t)
      ∧ (i.opClass ∉ [OpClass.jp, .call, .ret, .jpV0, .seImm, .sneImm, .seReg, .sneReg, .skp, .sknp,
          .ldVxK] → endsNormal s t)

/-! ### Encoding -/

/-- R62: decoding the encoding of a well-formed instruction gives it back, every operand at every
value, from the word and from its bytes with anything after them. The patterns are the spec's
general knowledge and the ignored fields the model's operands (log entries 9 and 12). -/
def Obligations.DecodeInvertsEncode : Prop :=
  ∀ i : Instr, i.wellFormed = true →
    decodeWord (encode i) = i ∧ ∀ rest, decodeBytes (encodeBytes i ++ rest) = .ok (i, rest)

/-- Every word decodes to a well-formed instruction and that instruction encodes to the word: no bit
of a word is dropped, and no two words share an instruction (R47, R59). The ignored fields are
operands by the model's choice (log entry 12). -/
def Obligations.EncodeInvertsDecode : Prop :=
  ∀ w : Word, (decodeWord w).wellFormed = true ∧ encode (decodeWord w) = w

/-- R60: the decoder agrees with the 34 match and mask pairs of the table, in both directions, and a
word is unrecognized exactly when no row matches it. The patterns are the spec's general knowledge,
the class names its decision D21 (log entries 9 and 10). -/
def Obligations.DecoderAgreesWithTheOpcodeTable : Prop :=
  ∀ w : Word,
    (∀ row ∈ opcodeTable, w &&& row.mask = row.pattern ↔ (decodeWord w).opClass = row.cls)
      ∧ ((decodeWord w).opClass = .nopUnrecognized ↔
        ∀ row ∈ opcodeTable, w &&& row.mask ≠ row.pattern)

/-- R57: which words are unrecognized, family by family. The widths of the selectors are the spec's
decision D2 (log entry 10). -/
def Obligations.UnrecognizedWordsAreExactlyThese : Prop :=
  ∀ w : Word, (decodeWord w).opClass = .nopUnrecognized ↔
    (w.toNat / 4096 = 0x0 ∧ w.toNat % 4096 ≠ 0x0E0 ∧ w.toNat % 4096 ≠ 0x0EE)
      ∨ (w.toNat / 4096 = 0x8 ∧ w.toNat % 16 ∈ [0x8, 0x9, 0xA, 0xB, 0xC, 0xD, 0xF])
      ∨ (w.toNat / 4096 = 0xE ∧ w.toNat % 256 ∉ [0x9E, 0xA1])
      ∨ (w.toNat / 4096 = 0xF
          ∧ w.toNat % 256 ∉ [0x07, 0x0A, 0x15, 0x18, 0x1E, 0x29, 0x33, 0x55, 0x65])

/-- R46: the six fields of a word as numbers and how they overlap; the descriptor carries all of
them for every word (R47). Which memory byte holds which fields is the spec's own inference, marked
derived from R33 in R46. -/
def Obligations.FieldsAreTheBitSlicesOfTheWord : Prop :=
  (∀ w : Word,
    (describe w).family.toNat = w.toNat / 4096 ∧ (describe w).x.toNat = w.toNat / 256 % 16
      ∧ (describe w).y.toNat = w.toNat / 16 % 16 ∧ (describe w).n.toNat = w.toNat % 16
      ∧ (describe w).kk.toNat = w.toNat % 256 ∧ (describe w).nnn.toNat = w.toNat % 4096
      ∧ (describe w).nnn.toNat = (describe w).x.toNat * 256 + (describe w).kk.toNat
      ∧ (describe w).kk.toNat = (describe w).y.toNat * 16 + (describe w).n.toNat
      ∧ (describe w).raw = w)
    ∧ ∀ hi lo : Byte,
      hi.toNat = (describe (wordOfBytes hi lo)).family.toNat * 16
          + (describe (wordOfBytes hi lo)).x.toNat
        ∧ lo = (describe (wordOfBytes hi lo)).kk

/-- Words written out from R51 to R55 decode to the instructions they stand for, at least one of
each of the sixteen families and one unrecognized word of each of the four that have any. Most of
the patterns are the spec's general knowledge (log entry 9). -/
def Obligations.SampleWordsDecode : Prop :=
  decodeWord 0x00E0 = .cls ∧ decodeWord 0x00EE = .ret ∧ decodeWord 0x1ABC = .jp 0xABC
    ∧ decodeWord 0x2ABC = .call 0xABC ∧ decodeWord 0x3AFF = .seImm 0xA 0xFF
    ∧ decodeWord 0x4A00 = .sneImm 0xA 0x00 ∧ decodeWord 0x5AB7 = .seReg 0xA 0xB 0x7
    ∧ decodeWord 0x6005 = .ldImm 0x0 0x05 ∧ decodeWord 0x7F01 = .addImm 0xF 0x01
    ∧ decodeWord 0x8014 = .addReg 0x0 0x1 ∧ decodeWord 0x8ABE = .shl 0xA 0xB
    ∧ decodeWord 0x9ABF = .sneReg 0xA 0xB 0xF ∧ decodeWord 0xA123 = .ldI 0x123
    ∧ decodeWord 0xB123 = .jpV0 0x123 ∧ decodeWord 0xC30F = .rnd 0x3 0x0F
    ∧ decodeWord 0xD125 = .draw 0x1 0x2 0x5
    ∧ decodeWord 0xE59E = .skp 0x5 ∧ decodeWord 0xF30A = .ldVxK 0x3
    ∧ decodeWord 0xF355 = .stRegs 0x3 ∧ decodeWord 0x0000 = .nopSys 0x000
    ∧ decodeWord 0x8AB8 = .nopAlu 0xA 0xB 0x8 ∧ decodeWord 0xE51E = .nopKey 0x5 0x1E
    ∧ decodeWord 0xF375 = .nopMisc 0x3 0x75

/-- R56: the low nibble of `5XY_` and `9XY_` and the Y of `8XY6` and `8XYE` change nothing an
instruction does. Part (a) is the spec's decision D18 (log entry 10). -/
def Obligations.IgnoredBitsChangeNothing : Prop :=
  ∀ (w : Word) (s : State),
    (w.toNat / 4096 = 0x5 ∨ w.toNat / 4096 = 0x9 →
        exec (decodeWord w) s = exec (decodeWord (BitVec.ofNat 16 (w.toNat - w.toNat % 16))) s)
      ∧ (w.toNat / 4096 = 0x8 ∧ (w.toNat % 16 = 0x6 ∨ w.toNat % 16 = 0xE) →
        exec (decodeWord w) s
          = exec (decodeWord (BitVec.ofNat 16 (w.toNat - w.toNat / 16 % 16 * 16))) s)

/-! ### Control transfer -/

/-- R75: `JP nnn`. The rule marks the bit pattern as general knowledge (log entry 9). -/
def Obligations.JumpSetsPc : Prop :=
  ∀ (nnn : Addr) (s : State),
    encodedAs (0x1000 + nnn.toNat) (.jp nnn)
      ∧ ∃ t, exec (.jp nnn) s = .next t ∧ endsAt nnn.toNat t ∧ onlyControlChanges s t ∧ sameStack s t

/-- R78: `JP V0, nnn`: the offset is `V[0]`, the 16-bit sum is not masked. The rule marks pattern
and meaning as general knowledge, decision D8 (log entries 9 and 10). -/
def Obligations.JumpWithOffsetAddsV0 : Prop :=
  ∀ (nnn : Addr) (s : State),
    encodedAs (0xB000 + nnn.toNat) (.jpV0 nnn)
      ∧ ∃ t, exec (.jpV0 nnn) s = .next t ∧ endsAt (nnn.toNat + (s.reg 0).toNat) t
        ∧ onlyControlChanges s t ∧ sameStack s t

/-- R76: `CALL nnn` with room pushes `(PC + 2) mod 65536` and jumps; with `SP = 16` it faults. The
rule marks the bit pattern as general knowledge (log entry 9); the pushed value and the fault are
its decisions D4 and D5 (log entry 10). -/
def Obligations.CallPushesTheReturnAddress : Prop :=
  ∀ (nnn : Addr) (s : State),
    encodedAs (0x2000 + nnn.toNat) (.call nnn)
      ∧ (∀ h : s.sp.toNat < 16, ∃ t, exec (.call nnn) s = .next t ∧ endsAt nnn.toNat t
        ∧ t.stack[s.sp.toNat].toNat = (s.pc.toNat + 2) % 65536
        ∧ (∀ (k : Nat) (hk : k < 16), k ≠ s.sp.toNat → t.stack[k] = s.stack[k])
        ∧ t.sp.toNat = s.sp.toNat + 1 ∧ onlyControlChanges s t)
      ∧ (s.sp.toNat = 16 → exec (.call nnn) s = .fault .stackOverflow)

/-- R77: `RET` with an entry in use pops it into PC and leaves it in the array; with `SP = 0` it
faults. The rule marks the bit pattern as general knowledge (log entry 9); the fault is its decision
D5 (log entry 10). -/
def Obligations.ReturnPopsIntoPc : Prop :=
  ∀ s : State,
    encodedAs 0x00EE .ret
      ∧ (∀ (h0 : 0 < s.sp.toNat) (h : s.sp.toNat ≤ 16), ∃ t, exec .ret s = .next t
        ∧ endsAt (s.stack[s.sp.toNat - 1]).toNat t ∧ t.sp.toNat = s.sp.toNat - 1
        ∧ (∀ (k : Nat) (hk : k < 16), t.stack[k] = s.stack[k]) ∧ onlyControlChanges s t)
      ∧ (s.sp.toNat = 0 → exec .ret s = .fault .stackUnderflow)

/-- CALL and RET with an `SP` above 16, which no reachable state has (R26), stop by name: the model's
own choice (assumption 5). -/
def Obligations.StackCountAboveSixteenIsRefused : Prop :=
  ∀ (nnn : Addr) (s : State), 16 < s.sp.toNat →
    exec (.call nnn) s = .refused .stackCountOutOfRange
      ∧ exec .ret s = .refused .stackCountOutOfRange

/-- A return from a call comes back to the instruction after the call with the stack count of before
(R76, R77, R84), whatever ran in between, as long as the stack is as the call left it. The pushed
value is the spec's decision D4 (log entry 10). -/
def Obligations.ReturnComesBackAfterTheCall : Prop :=
  ∀ (nnn : Addr) (s t u : State), exec (.call nnn) s = .next t → u.sp = t.sp →
    u.stack = t.stack →
    ∃ r, exec .ret u = .next r ∧ endsAt ((s.pc.toNat + 2) % 65536) r ∧ r.sp = s.sp

/-- R79 to R82: the four compare-and-skip instructions, every low nibble of the register forms
included. The rules mark the bit patterns as general knowledge (log entry 9), the ignored low nibble
as decision D18 (log entry 10). -/
def Obligations.CompareAndSkip : Prop :=
  ∀ (x y : RegIdx) (n : Nibble) (kk : Byte) (s : State),
    encodedAs (0x3000 + x.toNat * 256 + kk.toNat) (.seImm x kk)
      ∧ (∃ t, exec (.seImm x kk) s = .next t ∧ skipsWhen (s.reg x = kk) s t)
      ∧ encodedAs (0x4000 + x.toNat * 256 + kk.toNat) (.sneImm x kk)
      ∧ (∃ t, exec (.sneImm x kk) s = .next t ∧ skipsWhen (s.reg x ≠ kk) s t)
      ∧ encodedAs (0x5000 + x.toNat * 256 + y.toNat * 16 + n.toNat) (.seReg x y n)
      ∧ (∃ t, exec (.seReg x y n) s = .next t ∧ skipsWhen (s.reg x = s.reg y) s t)
      ∧ encodedAs (0x9000 + x.toNat * 256 + y.toNat * 16 + n.toNat) (.sneReg x y n)
      ∧ (∃ t, exec (.sneReg x y n) s = .next t ∧ skipsWhen (s.reg x ≠ s.reg y) s t)

/-- R83: an unrecognized word does nothing but advance PC by 2 and let the timers tick; never a fault. -/
def Obligations.UnrecognizedWordIsANoOp : Prop :=
  ∀ (i : Instr) (s : State), i.opClass = .nopUnrecognized →
    ∃ t, exec i s = .next t ∧ nothingChanges s t ∧ endsNormal s t
      ∧ t.endCycle.dt.toNat = s.dt.toNat - 1 ∧ t.endCycle.st.toNat = s.st.toNat - 1

/-! ### Load, arithmetic, logic, shift, random -/

/-- R91: `LD Vx, kk`. -/
def Obligations.LoadImmediateSetsTheRegister : Prop :=
  ∀ (x : RegIdx) (kk : Byte) (s : State),
    encodedAs (0x6000 + x.toNat * 256 + kk.toNat) (.ldImm x kk)
      ∧ ∃ t, exec (.ldImm x kk) s = .next t ∧ writesOnly x kk.toNat s t

/-- R92, R93: the immediate addition without flag and the register copy. The rules mark pattern and
meaning as general knowledge, decision D1 (log entries 9 and 10). -/
def Obligations.ImmediateAdditionAndCopy : Prop :=
  ∀ (x y : RegIdx) (kk : Byte) (s : State),
    encodedAs (0x7000 + x.toNat * 256 + kk.toNat) (.addImm x kk)
      ∧ (∃ t, exec (.addImm x kk) s = .next t
        ∧ writesOnly x (((s.reg x).toNat + kk.toNat) % 256) s t)
      ∧ encodedAs (0x8000 + x.toNat * 256 + y.toNat * 16) (.ldReg x y)
      ∧ (∃ t, exec (.ldReg x y) s = .next t ∧ writesOnly x (s.reg y).toNat s t)

/-- R94 to R96: the bitwise operations, bit by bit; the flag register is an ordinary register. The
rules mark the bit patterns as general knowledge (log entry 9). -/
def Obligations.BitwiseOperationsLeaveTheFlag : Prop :=
  ∀ (x y : RegIdx) (s : State),
    encodedAs (0x8001 + x.toNat * 256 + y.toNat * 16) (.orReg x y)
      ∧ (∃ t, exec (.orReg x y) s = .next t ∧ writesOnly x (t.reg x).toNat s t
        ∧ ∀ k, k < 8 → (t.reg x).getLsbD k = ((s.reg x).getLsbD k || (s.reg y).getLsbD k))
      ∧ encodedAs (0x8002 + x.toNat * 256 + y.toNat * 16) (.andReg x y)
      ∧ (∃ t, exec (.andReg x y) s = .next t ∧ writesOnly x (t.reg x).toNat s t
        ∧ ∀ k, k < 8 → (t.reg x).getLsbD k = ((s.reg x).getLsbD k && (s.reg y).getLsbD k))
      ∧ encodedAs (0x8003 + x.toNat * 256 + y.toNat * 16) (.xorReg x y)
      ∧ (∃ t, exec (.xorReg x y) s = .next t ∧ writesOnly x (t.reg x).toNat s t
        ∧ ∀ k, k < 8 → (t.reg x).getLsbD k = ((s.reg x).getLsbD k != (s.reg y).getLsbD k))

/-- R97: register addition, the carry in `VF`, the result last when X is F. -/
def Obligations.AdditionSetsTheCarry : Prop :=
  ∀ (x y : RegIdx) (s : State),
    encodedAs (0x8004 + x.toNat * 256 + y.toNat * 16) (.addReg x y)
      ∧ ∃ t, exec (.addReg x y) s = .next t
        ∧ writesFlagged x (if 255 < (s.reg x).toNat + (s.reg y).toNat then 1 else 0)
          (((s.reg x).toNat + (s.reg y).toNat) % 256) s t

/-- R98, R100: both subtractions, `VF` = 1 exactly when no borrow occurs, the result last when X is
F. The rules mark the bit patterns as general knowledge (log entry 9); the order of the writes is
decision D7 (log entry 10). -/
def Obligations.SubtractionsSetNotBorrow : Prop :=
  ∀ (x y : RegIdx) (s : State),
    encodedAs (0x8005 + x.toNat * 256 + y.toNat * 16) (.subReg x y)
      ∧ (∃ t, exec (.subReg x y) s = .next t
        ∧ writesFlagged x (if (s.reg y).toNat ≤ (s.reg x).toNat then 1 else 0)
          (((s.reg x).toNat + 256 - (s.reg y).toNat) % 256) s t)
      ∧ encodedAs (0x8007 + x.toNat * 256 + y.toNat * 16) (.subnReg x y)
      ∧ (∃ t, exec (.subnReg x y) s = .next t
        ∧ writesFlagged x (if (s.reg x).toNat ≤ (s.reg y).toNat then 1 else 0)
          (((s.reg y).toNat + 256 - (s.reg x).toNat) % 256) s t)

/-- R99, R101: both shifts, in place by one, the bit shifted out in `VF`, `V[Y]` neither read nor
written, the result last when X is F. The rules mark the bit patterns as general knowledge (log
entry 9). -/
def Obligations.ShiftsMoveOneBitIntoTheFlag : Prop :=
  ∀ (x y : RegIdx) (s : State),
    encodedAs (0x8006 + x.toNat * 256 + y.toNat * 16) (.shr x y)
      ∧ (∃ t, exec (.shr x y) s = .next t
        ∧ writesFlagged x ((s.reg x).toNat % 2) ((s.reg x).toNat / 2) s t)
      ∧ encodedAs (0x800E + x.toNat * 256 + y.toNat * 16) (.shl x y)
      ∧ (∃ t, exec (.shl x y) s = .next t
        ∧ writesFlagged x ((s.reg x).toNat / 128) (2 * (s.reg x).toNat % 256) s t)

/-- R102: the random byte of the cycle, masked, for every value of it; the old value of `V[X]` plays
no part and no bit outside the mask is set. The pattern and the destination are general knowledge,
decision D13 (log entries 9 and 10); where the input lies is the model's choice (log entry 1). -/
def Obligations.RandomByteIsMasked : Prop :=
  ∀ (x : RegIdx) (kk : Byte) (s : State),
    encodedAs (0xC000 + x.toNat * 256 + kk.toNat) (.rnd x kk)
      ∧ ∃ t, exec (.rnd x kk) s = .next t ∧ writesOnly x (t.reg x).toNat s t
        ∧ ∀ k, k < 8 → (t.reg x).getLsbD k = (s.rand.getLsbD k && kk.getLsbD k)

/-- A flag-defining instruction whose destination is another register leaves exactly 0 or 1 in `VF`
(R11); a draw always does. -/
def Obligations.FlagIsZeroOrOne : Prop :=
  ∀ (i : Instr) (s t : State), exec i s = .next t →
    ((∃ x y, x ≠ VF ∧ i ∈ [Instr.addReg x y, .subReg x y, .shr x y, .subnReg x y, .shl x y])
      ∨ ∃ x y n, i = .draw x y n) →
    t.reg VF = 0#8 ∨ t.reg VF = 1#8

/-! ### Index register and memory -/

/-- R110 to R112: the three instructions that set `I`: the immediate, the 16-bit sum without flag,
the glyph address of the low nibble. The rules mark the patterns, and R110 whole, as general
knowledge, the masked digit as decision D10 (log entries 9 and 10). -/
def Obligations.IndexRegisterWrites : Prop :=
  ∀ (x : RegIdx) (nnn : Addr) (s : State),
    encodedAs (0xA000 + nnn.toNat) (.ldI nnn)
      ∧ (∃ t, exec (.ldI nnn) s = .next t ∧ t.index.toNat = nnn.toNat ∧ onlyIndexChanges s t
        ∧ endsNormal s t)
      ∧ encodedAs (0xF01E + x.toNat * 256) (.addI x)
      ∧ (∃ t, exec (.addI x) s = .next t
        ∧ t.index.toNat = (s.index.toNat + (s.reg x).toNat) % 65536 ∧ onlyIndexChanges s t
        ∧ endsNormal s t)
      ∧ encodedAs (0xF029 + x.toNat * 256) (.ldF x)
      ∧ (∃ t, exec (.ldF x) s = .next t ∧ t.index.toNat = 5 * ((s.reg x).toNat % 16)
        ∧ onlyIndexChanges s t ∧ endsNormal s t)

/-- R31 to R33: the byte at an address is the byte at the address reduced modulo 4096, a write changes
that byte and no other and keeps the invariant, and the two bytes of a fetch are masked separately;
no address stops an access.  The premise is the invariant (log entry 6). -/
def Obligations.MemoryAddressesAreMasked : Prop :=
  ∀ (a b : Nat) (val : Byte) (s : State), Inv s →
    s.memRead a = s.memRead (a % 4096)
      ∧ (s.memWrite a val).memRead b = (if b % 4096 = a % 4096 then val else s.memRead b)
      ∧ Inv (s.memWrite a val)
      ∧ s.fetchWord.toNat = (s.memRead (s.pc.toNat % 4096)).toNat * 256
          + (s.memRead ((s.pc.toNat + 1) % 4096)).toNat

/-- R113: the three decimal digits at `I`, `I + 1`, `I + 2`, each address masked separately. The
rule marks the bit pattern as general knowledge (log entry 9); the premise is the invariant (log
entry 6). -/
def Obligations.DecimalDigitsAreStored : Prop :=
  ∀ (x : RegIdx) (s : State), Inv s →
    encodedAs (0xF033 + x.toNat * 256) (.ldB x)
      ∧ ∃ t, exec (.ldB x) s = .next t
        ∧ storesRun s.index.toNat 3 (decimalDigit (s.reg x).toNat) s t
        ∧ onlyMemoryChanges s t ∧ endsNormal s t

/-- R114: `V[0]` to `V[X]` are stored at `I` to `I + X`, each address masked separately; `I` and the
registers stay. The rule marks the bit pattern as general knowledge (log entry 9); the premise is
the invariant (log entry 6). -/
def Obligations.RegisterBlockIsStored : Prop :=
  ∀ (x : RegIdx) (s : State), Inv s →
    encodedAs (0xF055 + x.toNat * 256) (.stRegs x)
      ∧ ∃ t, exec (.stRegs x) s = .next t
        ∧ storesRun s.index.toNat (x.toNat + 1) (fun k => (s.reg (BitVec.ofNat 4 k)).toNat) s t
        ∧ onlyMemoryChanges s t ∧ endsNormal s t

/-- R115: `V[0]` to `V[X]` are loaded from `I` to `I + X`; the registers above X, `I` and memory
stay. The rule marks the bit pattern as general knowledge (log entry 9). -/
def Obligations.RegisterBlockIsLoaded : Prop :=
  ∀ (x : RegIdx) (s : State),
    encodedAs (0xF065 + x.toNat * 256) (.ldRegs x)
      ∧ ∃ t, exec (.ldRegs x) s = .next t
        ∧ (∀ r : RegIdx, r.toNat ≤ x.toNat →
          t.reg r = s.memRead ((s.index.toNat + r.toNat) % 4096)
            ∧ t.reg r = s.memRead (s.index.toNat + r.toNat))
        ∧ sameRegsExcept (fun r => r.toNat ≤ x.toNat) s t ∧ onlyRegsChange s t ∧ endsNormal s t

/-- A block stored and loaded back from the same place restores the registers of the block (R114,
R115), whatever the registers hold in between. -/
def Obligations.StoredBlockLoadsBack : Prop :=
  ∀ (x : RegIdx) (s t u : State), Inv s → exec (.stRegs x) s = .next t → sameMemory t u →
    u.index = s.index →
    ∃ r, exec (.ldRegs x) u = .next r
      ∧ ∀ k : RegIdx, k.toNat ≤ x.toNat → r.reg k = s.reg k

/-- A store is seen by the very next fetch (R40): after `FX55` or `FX33`, wherever their bytes fall
on the following word, the next cycle fetches each byte of it as stored where it was stored to and
as it was where it was not. R40 is the spec's own inference; the premise is the invariant (log entry
6). -/
def Obligations.StoreIsSeenByTheNextFetch : Prop :=
  ∀ (x : RegIdx) (s u : State), Inv s → step s = .next u →
    (s.current = .stRegs x →
        nextFetchSees (x.toNat + 1) (fun k => (s.reg (BitVec.ofNat 4 k)).toNat) s u)
      ∧ (s.current = .ldB x → nextFetchSees 3 (decimalDigit (s.reg x).toNat) s u)

/-! ### Display -/

/-- R121: every pixel is 0 afterwards and nothing else changes, `VF` included. The rule marks
pattern and meaning as general knowledge, decision D3 (log entries 9 and 10). -/
def Obligations.ClearSetsEveryPixelToZero : Prop :=
  ∀ s : State, encodedAs 0x00E0 .cls
    ∧ ∃ t, exec .cls s = .next t ∧ (∀ y x : Nat, t.pixel y x = false) ∧ sameRegs s t
      ∧ onlyScreenAndRegsChange s t ∧ endsNormal s t

/-- R122: a draw flips exactly the pixels under a set sprite bit, each axis wrapping on its own, and
`VF` says whether one of them was 1; the coordinates are the start-of-cycle values, X or Y being F
included. The rule marks the bit pattern as general knowledge (log entry 9), and which bit is which
column as decision D14 (log entry 10). -/
def Obligations.DrawFlipsThePixelsUnderTheSprite : Prop :=
  ∀ (x y : RegIdx) (n : Nibble) (s : State),
    encodedAs (0xD000 + x.toNat * 256 + y.toNat * 16 + n.toNat) (.draw x y n)
      ∧ ∃ t, exec (.draw x y n) s = .next t
        ∧ (∀ py px, py < 32 → px < 64 →
          (spriteCovers s x y n py px → t.pixel py px = !s.pixel py px)
            ∧ (¬ spriteCovers s x y n py px → t.pixel py px = s.pixel py px))
        ∧ ((∃ py px, spriteCovers s x y n py px ∧ s.pixel py px = true) → t.reg VF = 1#8)
        ∧ ((¬ ∃ py px, spriteCovers s x y n py px ∧ s.pixel py px = true) → t.reg VF = 0#8)
        ∧ sameRegsExcept (· = VF) s t ∧ onlyScreenAndRegsChange s t ∧ endsNormal s t

/-- Drawing the same sprite at the same place again restores the framebuffer, and `VF` is 1 exactly
when the first draw turned a pixel from 0 to 1 (R122). -/
def Obligations.SecondDrawRestoresTheScreen : Prop :=
  ∀ (x y x' y' : RegIdx) (n : Nibble) (s t u : State), exec (.draw x y n) s = .next t →
    sameScreen t u → sameMemory s u → u.index = s.index → u.reg x' = s.reg x → u.reg y' = s.reg y →
    ∃ r, exec (.draw x' y' n) u = .next r ∧ sameScreen s r
      ∧ ((∃ py px, s.pixel py px = false ∧ t.pixel py px = true) → r.reg VF = 1#8)
      ∧ ((¬ ∃ py px, s.pixel py px = false ∧ t.pixel py px = true) → r.reg VF = 0#8)

/-! ### Keys and timers -/

/-- R130, R131: the two key skips, on the key numbered by the low nibble of `V[X]`. The rules mark
the patterns and the two senses as general knowledge, the masked key number as decision D11 (log
entries 9 and 10). -/
def Obligations.KeySkips : Prop :=
  ∀ (x : RegIdx) (s : State),
    encodedAs (0xE09E + x.toNat * 256) (.skp x)
      ∧ (∃ t, exec (.skp x) s = .next t ∧ skipsWhen (s.key ((s.reg x).toNat % 16) = true) s t)
      ∧ encodedAs (0xE0A1 + x.toNat * 256) (.sknp x)
      ∧ (∃ t, exec (.sknp x) s = .next t ∧ skipsWhen (s.key ((s.reg x).toNat % 16) = false) s t)

/-- R132: the key wait completes with the least pressed key of 1 to 15 in `V[X]`; with none pressed
the cycle leaves PC where it is and changes nothing; key 0 is not examined. The rule marks the bit
pattern as general knowledge (log entry 9), and the choice of the least key as decision D12 (log
entry 10). -/
def Obligations.KeyWaitTakesTheLeastPressedKey : Prop :=
  ∀ (x : RegIdx) (s : State),
    encodedAs (0xF00A + x.toNat * 256) (.ldVxK x)
      ∧ (∀ k, 1 ≤ k → k ≤ 15 → s.key k = true → (∀ j, 1 ≤ j → j < k → s.key j = false) →
        ∃ t, exec (.ldVxK x) s = .next t ∧ writesOnly x k s t)
      ∧ ((∀ k, 1 ≤ k → k ≤ 15 → s.key k = false) →
        ∃ t, exec (.ldVxK x) s = .next t ∧ nothingChanges s t ∧ t.outcome = some .transferred
          ∧ t.endCycle.pc = s.pc)

/-- A waiting key-wait cycle is a complete cycle that changes nothing but the timers (R132, R73), and
the same instruction is fetched again. -/
def Obligations.WaitingCycleChangesOnlyTheTimers : Prop :=
  ∀ s : State, s.initialized = true → waitsForKey s →
    ∃ u, step s = .next u ∧ sameRegs s u ∧ sameIndex s u ∧ samePc s u ∧ sameStack s u
      ∧ sameMemory s u ∧ sameScreen s u ∧ u.dt.toNat = s.dt.toNat - 1
      ∧ u.st.toNat = s.st.toNat - 1 ∧ u.current = s.current

/-- R133 to R135: the timer accesses, and the value each leaves at the end of its own cycle, after
the tick. The rules mark the patterns and which timer each reaches as general knowledge (log entry
9). -/
def Obligations.TimerAccesses : Prop :=
  ∀ (x : RegIdx) (s : State),
    encodedAs (0xF007 + x.toNat * 256) (.ldVxDt x)
      ∧ (∃ t, exec (.ldVxDt x) s = .next t ∧ writesOnly x s.dt.toNat s t
        ∧ t.endCycle.dt.toNat = s.dt.toNat - 1)
      ∧ encodedAs (0xF015 + x.toNat * 256) (.ldDtVx x)
      ∧ (∃ t, exec (.ldDtVx x) s = .next t ∧ t.dt = s.reg x ∧ t.st = s.st ∧ onlyTimersChange s t
        ∧ endsNormal s t ∧ t.endCycle.dt.toNat = (s.reg x).toNat - 1)
      ∧ encodedAs (0xF018 + x.toNat * 256) (.ldStVx x)
      ∧ (∃ t, exec (.ldStVx x) s = .next t ∧ t.st = s.reg x ∧ t.dt = s.dt ∧ onlyTimersChange s t
        ∧ endsNormal s t ∧ t.endCycle.st.toNat = (s.reg x).toNat - 1
        ∧ (t.endCycle.soundActive = true ↔ 2 ≤ (s.reg x).toNat))

/-! ### Rules about the whole machine -/

/-- No instruction writes a general register but those the tables of R10 and R11 list for it. -/
def Obligations.RegistersChangeOnlyByTheirWriters : Prop :=
  ∀ (i : Instr) (s t : State), exec i s = .next t → sameRegsExcept (fun r => mayWriteReg r i) s t

/-- Every other piece of state changes only by the instructions that 10_state.md and R38 name as its
writers: `I`, PC (in the handler), the stack, the timers (before the tick), memory, the framebuffer; and
no handler touches the inputs (R25). -/
def Obligations.StateChangesOnlyByItsWriters : Prop :=
  ∀ (i : Instr) (s t : State), exec i s = .next t →
    (i.opClass ∉ [OpClass.ldI, .addI, .ldF] → sameIndex s t)
      ∧ (i.opClass ∉ [OpClass.jp, .call, .ret, .jpV0] → samePc s t)
      ∧ (i.opClass ∉ [OpClass.call, .ret] → sameStack s t)
      ∧ (i.opClass ≠ .ldDtVx → t.dt = s.dt) ∧ (i.opClass ≠ .ldStVx → t.st = s.st)
      ∧ (i.opClass ∉ [OpClass.ldB, .stRegs] → sameMemory s t)
      ∧ (i.opClass ∉ [OpClass.cls, .draw] → sameScreen s t)
      ∧ sameHost s t

/-- The random input reaches no instruction but `CXKK` (R20), and the key input none but `EX9E`,
`EXA1` and `FX0A` (R19): with another value there, every other instruction does the same. Where the
inputs lie is the model's choice (log entry 1). -/
def Obligations.InputsReachOnlyTheirReaders : Prop :=
  ∀ (i : Instr) (keys keys' : BitVec 16) (rand rand' : Byte) (s t : State),
    exec i (present keys rand s) = .next t →
    (i.opClass ≠ .rnd → exec i (present keys rand' s)
        = .next { t with inputs := ⟨keys, rand'⟩ :: s.inputs })
      ∧ (i.opClass ∉ [OpClass.skp, .sknp, .ldVxK] → exec i (present keys' rand s)
        = .next { t with inputs := ⟨keys', rand⟩ :: s.inputs })

/-- Bits 15:12 of `I`, of PC and of the stack entries influence nothing a program observes (R12,
R13): from two states that differ there at most, a step ends alike, and in states that differ there
at most. That the bits are kept is the spec's decision D9 (log entry 10). -/
def Obligations.HighAddressBitsAreNeverObserved : Prop :=
  ∀ s s' : State, agreeBelow4096 s s' →
    (∃ t t', step s = .next t ∧ step s' = .next t' ∧ agreeBelow4096 t t')
      ∨ (∃ f, step s = .fault f ∧ step s' = .fault f)
      ∨ (∃ r, step s = .refused r ∧ step s' = .refused r)

/-! ### The host's operations -/

/-- `initialize` is a full reset from any state (R160), and the core can be stepped after it. The
mark that says so is the model's (log entry 4), the font bytes of R36 are the spec's general
knowledge (log entry 9), and that the inputs and the cycle number are kept is the model's choice
(log entry 14). -/
def Obligations.InitializeIsAFullReset : Prop :=
  ∀ s : State, isResetState (hostInitialize s) ∧ (hostInitialize s).initialized = true

/-- A second `initialize` is the same as one, and a program loaded before it is erased (R161, the
spec's own inference from R160). That the inputs and the cycle number are kept is the model's choice
(log entry 14). -/
def Obligations.InitializeErasesTheProgram : Prop :=
  ∀ (image : List Byte) (s t : State), loadProgram image s = .next t →
    hostInitialize t = hostInitialize s ∧ hostInitialize (hostInitialize s) = hostInitialize s

/-- The inputs the host presents are those of the coming cycle (R19, R20, R165), and presenting them
changes nothing else of the state; that they lie in a schedule in the state is the model's choice
(log entry 1). -/
def Obligations.PresentedInputsAreSampled : Prop :=
  ∀ (keys : BitVec 16) (rand : Byte) (s : State),
    (∀ k, (present keys rand s).key k = keys.getLsbD k) ∧ (present keys rand s).rand = rand
      ∧ stepWith keys rand s = step (present keys rand s)
      ∧ sameRegs s (present keys rand s) ∧ sameIndex s (present keys rand s)
      ∧ samePc s (present keys rand s) ∧ sameStack s (present keys rand s)
      ∧ sameTimers s (present keys rand s) ∧ sameMemory s (present keys rand s)
      ∧ sameScreen s (present keys rand s) ∧ (present keys rand s).outcome = s.outcome
      ∧ (present keys rand s).initialized = s.initialized ∧ (present keys rand s).cycle = s.cycle
      ∧ (present keys rand s).inputs = ⟨keys, rand⟩ :: s.inputs
      ∧ (present keys rand s).endCycle.inputs = s.inputs

/-- R162: `loadProgram` copies an image of at most 3584 bytes to 512 upward and changes nothing
else; a longer one fails, all or nothing. The bound on the length is marked derived in R162; the
premise is the invariant (log entry 6). -/
def Obligations.LoadProgramIsAllOrNothing : Prop :=
  ∀ (image : List Byte) (s : State), s.initialized = true → Inv s →
    (3584 < image.length → loadProgram image s = .fault .imageTooLong)
      ∧ (image.length ≤ 3584 → ∃ t, loadProgram image s = .next t
        ∧ (∀ (k : Nat) (h : k < image.length), t.memRead (512 + k) = image[k])
        ∧ (∀ a, a < 4096 → a < 512 ∨ 512 + image.length ≤ a → t.memRead a = s.memRead a)
        ∧ onlyMemoryChanges s t ∧ t.outcome = s.outcome ∧ Inv t)

/-- A jump to self is a fixed point of everything but the timers (R169 b), and it is fetched again.
The idiom is the spec's general knowledge, decision D24 (log entries 9 and 10). -/
def Obligations.JumpToSelfIsAFixedPoint : Prop :=
  ∀ s : State, s.initialized = true → atJumpToSelf s →
    ∃ u, step s = .next u ∧ sameRegs s u ∧ sameIndex s u ∧ samePc s u ∧ sameStack s u
      ∧ sameMemory s u ∧ sameScreen s u ∧ u.dt.toNat = s.dt.toNat - 1
      ∧ u.st.toNat = s.st.toNat - 1 ∧ atJumpToSelf u

/-! ### The end of a run (R169, the model's own: log entry 18) -/

/-- R169 (a), decision D24: a run of `m + n` steps is a run of `m` and then one of `n`, a run of one step
is `step`, and a run that a step stops short stays stopped for the same reason. That a run is a count of
steps is the model's choice (log entry 18). -/
def Obligations.RunsOfStepsCompose : Prop :=
  ∀ (m n : Nat) (s : State),
    runSteps 0 s = .next s ∧ runSteps 1 s = step s
      ∧ (∀ t, runSteps m s = .next t → runSteps (m + n) s = runSteps n t)
      ∧ (∀ f, runSteps m s = .fault f → runSteps (m + n) s = .fault f)
      ∧ (∀ r, runSteps m s = .refused r → runSteps (m + n) s = .refused r)

/-- R169 (b), decision D24: a run to the end gives exactly the first state at a jump to self that at most
`n` steps come to, and a state that is to raise a stack fault or waits for a key is no end. That a run
ends there is the model's choice (log entry 18). -/
def Obligations.RunEndsAtTheFirstJumpToSelf : Prop :=
  ∀ (n : Nat) (s t : State),
    (runToEnd n s = some t ↔
      ∃ k, k ≤ n ∧ runSteps k s = .next t ∧ endsRun t
        ∧ ∀ j u, j < k → runSteps j s = .next u → ¬ endsRun u)
      ∧ (endsRun s → ¬ overflows s ∧ ¬ underflows s ∧ ¬ waitsForKey s)

/-- R169: at the end by (b) the host may go on stepping, any number of times: only the timers change, each
by one a step down to 0, and the run stays at its end. That the end is a jump to self is the model's
choice (log entry 18). -/
def Obligations.StepsAfterTheEndRunOnlyTheTimers : Prop :=
  ∀ (n : Nat) (s : State), endsRun s →
    ∃ u, runSteps n s = .next u ∧ sameRegs s u ∧ sameIndex s u ∧ samePc s u ∧ sameStack s u
      ∧ sameMemory s u ∧ sameScreen s u ∧ u.dt.toNat = s.dt.toNat - n
      ∧ u.st.toNat = s.st.toNat - n ∧ endsRun u
end

