-- ==== Sys2Proof/Laws/Encoding.lean ====
section
/-! SUPPORT. The fields of a word as numbers (spec 30_encoding.md R46), and a word and its bytes
(20_memory.md R33). -/

namespace Sys2Proof

theorem fieldFamily_toNat (w : Word) : (fieldFamily w).toNat = w.toNat / 4096 := by
  have := w.isLt
  simp only [fieldFamily, BitVec.extractLsb'_toNat, Nat.shiftRight_eq_div_pow]; omega

theorem fieldX_toNat (w : Word) : (fieldX w).toNat = w.toNat / 256 % 16 := by
  simp only [fieldX, BitVec.extractLsb'_toNat, Nat.shiftRight_eq_div_pow]

theorem fieldY_toNat (w : Word) : (fieldY w).toNat = w.toNat / 16 % 16 := by
  simp only [fieldY, BitVec.extractLsb'_toNat, Nat.shiftRight_eq_div_pow]

theorem fieldN_toNat (w : Word) : (fieldN w).toNat = w.toNat % 16 := by
  simp only [fieldN, BitVec.extractLsb'_toNat, Nat.shiftRight_eq_div_pow]; omega

theorem fieldKK_toNat (w : Word) : (fieldKK w).toNat = w.toNat % 256 := by
  simp only [fieldKK, BitVec.extractLsb'_toNat, Nat.shiftRight_eq_div_pow]; omega

theorem fieldNNN_toNat (w : Word) : (fieldNNN w).toNat = w.toNat % 4096 := by
  simp only [fieldNNN, BitVec.extractLsb'_toNat, Nat.shiftRight_eq_div_pow]; omega

/-! ### The fields of an assembled word -/

/-- The family of an assembled word (R46, R62). -/
theorem fieldFamily_ofNat (n f : Nat) (h : n < 65536) (e : n / 4096 = f) :
    fieldFamily (BitVec.ofNat 16 n) = BitVec.ofNat 4 f := by
  apply BitVec.eq_of_toNat_eq
  rw [fieldFamily_toNat, BitVec.toNat_ofNat, BitVec.toNat_ofNat]; omega

/-- The X of an assembled word (R46, R62). -/
theorem fieldX_ofNat (n : Nat) (x : RegIdx) (e : n / 256 % 16 = x.toNat) :
    fieldX (BitVec.ofNat 16 n) = x := by
  apply BitVec.eq_of_toNat_eq; rw [fieldX_toNat, BitVec.toNat_ofNat]; omega

/-- The Y of an assembled word (R46, R62). -/
theorem fieldY_ofNat (n : Nat) (y : RegIdx) (e : n / 16 % 16 = y.toNat) :
    fieldY (BitVec.ofNat 16 n) = y := by
  apply BitVec.eq_of_toNat_eq; rw [fieldY_toNat, BitVec.toNat_ofNat]; omega

/-- The N of an assembled word (R46, R62). -/
theorem fieldN_ofNat (n : Nat) (c : Nibble) (e : n % 16 = c.toNat) :
    fieldN (BitVec.ofNat 16 n) = c := by
  apply BitVec.eq_of_toNat_eq; rw [fieldN_toNat, BitVec.toNat_ofNat]; omega

/-- The KK of an assembled word (R46, R62). -/
theorem fieldKK_ofNat (n : Nat) (kk : Byte) (e : n % 256 = kk.toNat) :
    fieldKK (BitVec.ofNat 16 n) = kk := by
  apply BitVec.eq_of_toNat_eq; rw [fieldKK_toNat, BitVec.toNat_ofNat]; omega

/-- The NNN of an assembled word (R46, R62). -/
theorem fieldNNN_ofNat (n : Nat) (nnn : Addr) (e : n % 4096 = nnn.toNat) :
    fieldNNN (BitVec.ofNat 16 n) = nnn := by
  apply BitVec.eq_of_toNat_eq; rw [fieldNNN_toNat, BitVec.toNat_ofNat]; omega

/-! ### Fields under a mask (R60) -/

theorem fieldFamily_and (w m : Word) : fieldFamily (w &&& m) = fieldFamily w &&& fieldFamily m := by
  simp [fieldFamily, BitVec.extractLsb'_and]

theorem fieldN_and (w m : Word) : fieldN (w &&& m) = fieldN w &&& fieldN m := by
  simp [fieldN, BitVec.extractLsb'_and]

theorem fieldKK_and (w m : Word) : fieldKK (w &&& m) = fieldKK w &&& fieldKK m := by
  simp [fieldKK, BitVec.extractLsb'_and]

theorem fieldNNN_and (w m : Word) : fieldNNN (w &&& m) = fieldNNN w &&& fieldNNN m := by
  simp [fieldNNN, BitVec.extractLsb'_and]

/-- Two words with the same family and NNN are the same (R46). -/
theorem Word.ext_fields (w u : Word) (hf : fieldFamily w = fieldFamily u)
    (hn : fieldNNN w = fieldNNN u) : w = u := by
  have h1 := congrArg BitVec.toNat hf
  have h2 := congrArg BitVec.toNat hn
  rw [fieldFamily_toNat, fieldFamily_toNat] at h1
  rw [fieldNNN_toNat, fieldNNN_toNat] at h2
  exact BitVec.eq_of_toNat_eq (by omega)

/-- A word's two bytes make the word (R33). -/
@[simp] theorem wordOfBytes_hi_lo (w : Word) :
    wordOfBytes (w.extractLsb' 8 8) (w.extractLsb' 0 8) = w := by
  have := w.isLt
  apply BitVec.eq_of_toNat_eq
  simp only [wordOfBytes, BitVec.toNat_ofNat, BitVec.extractLsb'_toNat, Nat.shiftRight_eq_div_pow]
  omega

/-- The decoder reads a word from its two bytes and leaves the rest (R45). -/
theorem decodeBytes_bytesOfWord (w : Word) (rest : List Byte) :
    decodeBytes (bytesOfWord w ++ rest) = .ok (decodeWord w, rest) := by
  simp [bytesOfWord, decodeBytes]

end Sys2Proof
end

