-- ==== Sys2Proof/Laws/State.lean ====
section
/-! SUPPORT. The small lemmas of State: what each update leaves in each field, true by unfolding once,
so that no later proof unfolds a record update; and the register file's read after write. -/

namespace Sys2Proof.Machine

/-! ### setReg -/

@[simp] theorem State.setReg_v (s : State) (x : RegIdx) (val : Byte) :
    (s.setReg x val).v = s.v.set x.toNat val x.isLt := rfl
@[simp] theorem State.setReg_index (s : State) (x : RegIdx) (val : Byte) :
    (s.setReg x val).index = s.index := rfl
@[simp] theorem State.setReg_pc (s : State) (x : RegIdx) (val : Byte) :
    (s.setReg x val).pc = s.pc := rfl
@[simp] theorem State.setReg_sp (s : State) (x : RegIdx) (val : Byte) :
    (s.setReg x val).sp = s.sp := rfl
@[simp] theorem State.setReg_stack (s : State) (x : RegIdx) (val : Byte) :
    (s.setReg x val).stack = s.stack := rfl
@[simp] theorem State.setReg_dt (s : State) (x : RegIdx) (val : Byte) :
    (s.setReg x val).dt = s.dt := rfl
@[simp] theorem State.setReg_st (s : State) (x : RegIdx) (val : Byte) :
    (s.setReg x val).st = s.st := rfl
@[simp] theorem State.setReg_mem (s : State) (x : RegIdx) (val : Byte) :
    (s.setReg x val).mem = s.mem := rfl
@[simp] theorem State.setReg_fb (s : State) (x : RegIdx) (val : Byte) :
    (s.setReg x val).fb = s.fb := rfl
@[simp] theorem State.setReg_outcome (s : State) (x : RegIdx) (val : Byte) :
    (s.setReg x val).outcome = s.outcome := rfl
@[simp] theorem State.setReg_initialized (s : State) (x : RegIdx) (val : Byte) :
    (s.setReg x val).initialized = s.initialized := rfl
@[simp] theorem State.setReg_inputs (s : State) (x : RegIdx) (val : Byte) :
    (s.setReg x val).inputs = s.inputs := rfl
@[simp] theorem State.setReg_cycle (s : State) (x : RegIdx) (val : Byte) :
    (s.setReg x val).cycle = s.cycle := rfl

/-! ### setIndex -/

@[simp] theorem State.setIndex_v (s : State) (val : Word) : (s.setIndex val).v = s.v := rfl
@[simp] theorem State.setIndex_index (s : State) (val : Word) : (s.setIndex val).index = val := rfl
@[simp] theorem State.setIndex_pc (s : State) (val : Word) : (s.setIndex val).pc = s.pc := rfl
@[simp] theorem State.setIndex_sp (s : State) (val : Word) : (s.setIndex val).sp = s.sp := rfl
@[simp] theorem State.setIndex_stack (s : State) (val : Word) :
    (s.setIndex val).stack = s.stack := rfl
@[simp] theorem State.setIndex_dt (s : State) (val : Word) : (s.setIndex val).dt = s.dt := rfl
@[simp] theorem State.setIndex_st (s : State) (val : Word) : (s.setIndex val).st = s.st := rfl
@[simp] theorem State.setIndex_mem (s : State) (val : Word) : (s.setIndex val).mem = s.mem := rfl
@[simp] theorem State.setIndex_fb (s : State) (val : Word) : (s.setIndex val).fb = s.fb := rfl
@[simp] theorem State.setIndex_outcome (s : State) (val : Word) :
    (s.setIndex val).outcome = s.outcome := rfl
@[simp] theorem State.setIndex_initialized (s : State) (val : Word) :
    (s.setIndex val).initialized = s.initialized := rfl
@[simp] theorem State.setIndex_inputs (s : State) (val : Word) :
    (s.setIndex val).inputs = s.inputs := rfl
@[simp] theorem State.setIndex_cycle (s : State) (val : Word) :
    (s.setIndex val).cycle = s.cycle := rfl

/-! ### setPc -/

@[simp] theorem State.setPc_v (s : State) (val : Word) : (s.setPc val).v = s.v := rfl
@[simp] theorem State.setPc_index (s : State) (val : Word) : (s.setPc val).index = s.index := rfl
@[simp] theorem State.setPc_pc (s : State) (val : Word) : (s.setPc val).pc = val := rfl
@[simp] theorem State.setPc_sp (s : State) (val : Word) : (s.setPc val).sp = s.sp := rfl
@[simp] theorem State.setPc_stack (s : State) (val : Word) : (s.setPc val).stack = s.stack := rfl
@[simp] theorem State.setPc_dt (s : State) (val : Word) : (s.setPc val).dt = s.dt := rfl
@[simp] theorem State.setPc_st (s : State) (val : Word) : (s.setPc val).st = s.st := rfl
@[simp] theorem State.setPc_mem (s : State) (val : Word) : (s.setPc val).mem = s.mem := rfl
@[simp] theorem State.setPc_fb (s : State) (val : Word) : (s.setPc val).fb = s.fb := rfl
@[simp] theorem State.setPc_outcome (s : State) (val : Word) :
    (s.setPc val).outcome = s.outcome := rfl
@[simp] theorem State.setPc_initialized (s : State) (val : Word) :
    (s.setPc val).initialized = s.initialized := rfl
@[simp] theorem State.setPc_inputs (s : State) (val : Word) :
    (s.setPc val).inputs = s.inputs := rfl
@[simp] theorem State.setPc_cycle (s : State) (val : Word) : (s.setPc val).cycle = s.cycle := rfl

/-! ### setDt -/

@[simp] theorem State.setDt_v (s : State) (val : Byte) : (s.setDt val).v = s.v := rfl
@[simp] theorem State.setDt_index (s : State) (val : Byte) : (s.setDt val).index = s.index := rfl
@[simp] theorem State.setDt_pc (s : State) (val : Byte) : (s.setDt val).pc = s.pc := rfl
@[simp] theorem State.setDt_sp (s : State) (val : Byte) : (s.setDt val).sp = s.sp := rfl
@[simp] theorem State.setDt_stack (s : State) (val : Byte) : (s.setDt val).stack = s.stack := rfl
@[simp] theorem State.setDt_dt (s : State) (val : Byte) : (s.setDt val).dt = val := rfl
@[simp] theorem State.setDt_st (s : State) (val : Byte) : (s.setDt val).st = s.st := rfl
@[simp] theorem State.setDt_mem (s : State) (val : Byte) : (s.setDt val).mem = s.mem := rfl
@[simp] theorem State.setDt_fb (s : State) (val : Byte) : (s.setDt val).fb = s.fb := rfl
@[simp] theorem State.setDt_outcome (s : State) (val : Byte) :
    (s.setDt val).outcome = s.outcome := rfl
@[simp] theorem State.setDt_initialized (s : State) (val : Byte) :
    (s.setDt val).initialized = s.initialized := rfl
@[simp] theorem State.setDt_inputs (s : State) (val : Byte) :
    (s.setDt val).inputs = s.inputs := rfl
@[simp] theorem State.setDt_cycle (s : State) (val : Byte) : (s.setDt val).cycle = s.cycle := rfl

/-! ### setSt -/

@[simp] theorem State.setSt_v (s : State) (val : Byte) : (s.setSt val).v = s.v := rfl
@[simp] theorem State.setSt_index (s : State) (val : Byte) : (s.setSt val).index = s.index := rfl
@[simp] theorem State.setSt_pc (s : State) (val : Byte) : (s.setSt val).pc = s.pc := rfl
@[simp] theorem State.setSt_sp (s : State) (val : Byte) : (s.setSt val).sp = s.sp := rfl
@[simp] theorem State.setSt_stack (s : State) (val : Byte) : (s.setSt val).stack = s.stack := rfl
@[simp] theorem State.setSt_dt (s : State) (val : Byte) : (s.setSt val).dt = s.dt := rfl
@[simp] theorem State.setSt_st (s : State) (val : Byte) : (s.setSt val).st = val := rfl
@[simp] theorem State.setSt_mem (s : State) (val : Byte) : (s.setSt val).mem = s.mem := rfl
@[simp] theorem State.setSt_fb (s : State) (val : Byte) : (s.setSt val).fb = s.fb := rfl
@[simp] theorem State.setSt_outcome (s : State) (val : Byte) :
    (s.setSt val).outcome = s.outcome := rfl
@[simp] theorem State.setSt_initialized (s : State) (val : Byte) :
    (s.setSt val).initialized = s.initialized := rfl
@[simp] theorem State.setSt_inputs (s : State) (val : Byte) :
    (s.setSt val).inputs = s.inputs := rfl
@[simp] theorem State.setSt_cycle (s : State) (val : Byte) : (s.setSt val).cycle = s.cycle := rfl

/-! ### setOutcome -/

@[simp] theorem State.setOutcome_v (s : State) (o : Transfer) : (s.setOutcome o).v = s.v := rfl
@[simp] theorem State.setOutcome_index (s : State) (o : Transfer) :
    (s.setOutcome o).index = s.index := rfl
@[simp] theorem State.setOutcome_pc (s : State) (o : Transfer) : (s.setOutcome o).pc = s.pc := rfl
@[simp] theorem State.setOutcome_sp (s : State) (o : Transfer) : (s.setOutcome o).sp = s.sp := rfl
@[simp] theorem State.setOutcome_stack (s : State) (o : Transfer) :
    (s.setOutcome o).stack = s.stack := rfl
@[simp] theorem State.setOutcome_dt (s : State) (o : Transfer) : (s.setOutcome o).dt = s.dt := rfl
@[simp] theorem State.setOutcome_st (s : State) (o : Transfer) : (s.setOutcome o).st = s.st := rfl
@[simp] theorem State.setOutcome_mem (s : State) (o : Transfer) :
    (s.setOutcome o).mem = s.mem := rfl
@[simp] theorem State.setOutcome_fb (s : State) (o : Transfer) : (s.setOutcome o).fb = s.fb := rfl
@[simp] theorem State.setOutcome_outcome (s : State) (o : Transfer) :
    (s.setOutcome o).outcome = some o := rfl
@[simp] theorem State.setOutcome_initialized (s : State) (o : Transfer) :
    (s.setOutcome o).initialized = s.initialized := rfl
@[simp] theorem State.setOutcome_inputs (s : State) (o : Transfer) :
    (s.setOutcome o).inputs = s.inputs := rfl
@[simp] theorem State.setOutcome_cycle (s : State) (o : Transfer) :
    (s.setOutcome o).cycle = s.cycle := rfl

/-! ### setFb -/

@[simp] theorem State.setFb_v (s : State) (f : Framebuffer) : (s.setFb f).v = s.v := rfl
@[simp] theorem State.setFb_index (s : State) (f : Framebuffer) :
    (s.setFb f).index = s.index := rfl
@[simp] theorem State.setFb_pc (s : State) (f : Framebuffer) : (s.setFb f).pc = s.pc := rfl
@[simp] theorem State.setFb_sp (s : State) (f : Framebuffer) : (s.setFb f).sp = s.sp := rfl
@[simp] theorem State.setFb_stack (s : State) (f : Framebuffer) :
    (s.setFb f).stack = s.stack := rfl
@[simp] theorem State.setFb_dt (s : State) (f : Framebuffer) : (s.setFb f).dt = s.dt := rfl
@[simp] theorem State.setFb_st (s : State) (f : Framebuffer) : (s.setFb f).st = s.st := rfl
@[simp] theorem State.setFb_mem (s : State) (f : Framebuffer) : (s.setFb f).mem = s.mem := rfl
@[simp] theorem State.setFb_fb (s : State) (f : Framebuffer) : (s.setFb f).fb = f := rfl
@[simp] theorem State.setFb_outcome (s : State) (f : Framebuffer) :
    (s.setFb f).outcome = s.outcome := rfl
@[simp] theorem State.setFb_initialized (s : State) (f : Framebuffer) :
    (s.setFb f).initialized = s.initialized := rfl
@[simp] theorem State.setFb_inputs (s : State) (f : Framebuffer) :
    (s.setFb f).inputs = s.inputs := rfl
@[simp] theorem State.setFb_cycle (s : State) (f : Framebuffer) :
    (s.setFb f).cycle = s.cycle := rfl

/-! ### memWrite -/

@[simp] theorem State.memWrite_v (s : State) (a : Nat) (val : Byte) :
    (s.memWrite a val).v = s.v := rfl
@[simp] theorem State.memWrite_index (s : State) (a : Nat) (val : Byte) :
    (s.memWrite a val).index = s.index := rfl
@[simp] theorem State.memWrite_pc (s : State) (a : Nat) (val : Byte) :
    (s.memWrite a val).pc = s.pc := rfl
@[simp] theorem State.memWrite_sp (s : State) (a : Nat) (val : Byte) :
    (s.memWrite a val).sp = s.sp := rfl
@[simp] theorem State.memWrite_stack (s : State) (a : Nat) (val : Byte) :
    (s.memWrite a val).stack = s.stack := rfl
@[simp] theorem State.memWrite_dt (s : State) (a : Nat) (val : Byte) :
    (s.memWrite a val).dt = s.dt := rfl
@[simp] theorem State.memWrite_st (s : State) (a : Nat) (val : Byte) :
    (s.memWrite a val).st = s.st := rfl
@[simp] theorem State.memWrite_mem (s : State) (a : Nat) (val : Byte) :
    (s.memWrite a val).mem = Memory.write s.mem a val := rfl
@[simp] theorem State.memWrite_fb (s : State) (a : Nat) (val : Byte) :
    (s.memWrite a val).fb = s.fb := rfl
@[simp] theorem State.memWrite_outcome (s : State) (a : Nat) (val : Byte) :
    (s.memWrite a val).outcome = s.outcome := rfl
@[simp] theorem State.memWrite_initialized (s : State) (a : Nat) (val : Byte) :
    (s.memWrite a val).initialized = s.initialized := rfl
@[simp] theorem State.memWrite_inputs (s : State) (a : Nat) (val : Byte) :
    (s.memWrite a val).inputs = s.inputs := rfl
@[simp] theorem State.memWrite_cycle (s : State) (a : Nat) (val : Byte) :
    (s.memWrite a val).cycle = s.cycle := rfl

/-! ### writeRun -/

@[simp] theorem State.writeRun_v (s : State) (a : Nat) (bytes : List Byte) :
    (s.writeRun a bytes).v = s.v := rfl
@[simp] theorem State.writeRun_index (s : State) (a : Nat) (bytes : List Byte) :
    (s.writeRun a bytes).index = s.index := rfl
@[simp] theorem State.writeRun_pc (s : State) (a : Nat) (bytes : List Byte) :
    (s.writeRun a bytes).pc = s.pc := rfl
@[simp] theorem State.writeRun_sp (s : State) (a : Nat) (bytes : List Byte) :
    (s.writeRun a bytes).sp = s.sp := rfl
@[simp] theorem State.writeRun_stack (s : State) (a : Nat) (bytes : List Byte) :
    (s.writeRun a bytes).stack = s.stack := rfl
@[simp] theorem State.writeRun_dt (s : State) (a : Nat) (bytes : List Byte) :
    (s.writeRun a bytes).dt = s.dt := rfl
@[simp] theorem State.writeRun_st (s : State) (a : Nat) (bytes : List Byte) :
    (s.writeRun a bytes).st = s.st := rfl
@[simp] theorem State.writeRun_mem (s : State) (a : Nat) (bytes : List Byte) :
    (s.writeRun a bytes).mem = Memory.writeBytes s.mem a bytes := rfl
@[simp] theorem State.writeRun_fb (s : State) (a : Nat) (bytes : List Byte) :
    (s.writeRun a bytes).fb = s.fb := rfl
@[simp] theorem State.writeRun_outcome (s : State) (a : Nat) (bytes : List Byte) :
    (s.writeRun a bytes).outcome = s.outcome := rfl
@[simp] theorem State.writeRun_initialized (s : State) (a : Nat) (bytes : List Byte) :
    (s.writeRun a bytes).initialized = s.initialized := rfl
@[simp] theorem State.writeRun_inputs (s : State) (a : Nat) (bytes : List Byte) :
    (s.writeRun a bytes).inputs = s.inputs := rfl
@[simp] theorem State.writeRun_cycle (s : State) (a : Nat) (bytes : List Byte) :
    (s.writeRun a bytes).cycle = s.cycle := rfl

/-! ### push -/

@[simp] theorem State.push_v (s : State) (ret : Word) (h : s.sp.toNat < 16) :
    (s.push ret h).v = s.v := rfl
@[simp] theorem State.push_index (s : State) (ret : Word) (h : s.sp.toNat < 16) :
    (s.push ret h).index = s.index := rfl
@[simp] theorem State.push_pc (s : State) (ret : Word) (h : s.sp.toNat < 16) :
    (s.push ret h).pc = s.pc := rfl
@[simp] theorem State.push_sp (s : State) (ret : Word) (h : s.sp.toNat < 16) :
    (s.push ret h).sp = s.sp + 1#5 := rfl
@[simp] theorem State.push_stack (s : State) (ret : Word) (h : s.sp.toNat < 16) :
    (s.push ret h).stack = s.stack.set s.sp.toNat ret h := rfl
@[simp] theorem State.push_dt (s : State) (ret : Word) (h : s.sp.toNat < 16) :
    (s.push ret h).dt = s.dt := rfl
@[simp] theorem State.push_st (s : State) (ret : Word) (h : s.sp.toNat < 16) :
    (s.push ret h).st = s.st := rfl
@[simp] theorem State.push_mem (s : State) (ret : Word) (h : s.sp.toNat < 16) :
    (s.push ret h).mem = s.mem := rfl
@[simp] theorem State.push_fb (s : State) (ret : Word) (h : s.sp.toNat < 16) :
    (s.push ret h).fb = s.fb := rfl
@[simp] theorem State.push_outcome (s : State) (ret : Word) (h : s.sp.toNat < 16) :
    (s.push ret h).outcome = s.outcome := rfl
@[simp] theorem State.push_initialized (s : State) (ret : Word) (h : s.sp.toNat < 16) :
    (s.push ret h).initialized = s.initialized := rfl
@[simp] theorem State.push_inputs (s : State) (ret : Word) (h : s.sp.toNat < 16) :
    (s.push ret h).inputs = s.inputs := rfl
@[simp] theorem State.push_cycle (s : State) (ret : Word) (h : s.sp.toNat < 16) :
    (s.push ret h).cycle = s.cycle := rfl

/-! ### pop -/

@[simp] theorem State.pop_v (s : State) : (s.pop).v = s.v := rfl
@[simp] theorem State.pop_index (s : State) : (s.pop).index = s.index := rfl
@[simp] theorem State.pop_pc (s : State) : (s.pop).pc = s.pc := rfl
@[simp] theorem State.pop_sp (s : State) : (s.pop).sp = s.sp - 1#5 := rfl
@[simp] theorem State.pop_stack (s : State) : (s.pop).stack = s.stack := rfl
@[simp] theorem State.pop_dt (s : State) : (s.pop).dt = s.dt := rfl
@[simp] theorem State.pop_st (s : State) : (s.pop).st = s.st := rfl
@[simp] theorem State.pop_mem (s : State) : (s.pop).mem = s.mem := rfl
@[simp] theorem State.pop_fb (s : State) : (s.pop).fb = s.fb := rfl
@[simp] theorem State.pop_outcome (s : State) : (s.pop).outcome = s.outcome := rfl
@[simp] theorem State.pop_initialized (s : State) : (s.pop).initialized = s.initialized := rfl
@[simp] theorem State.pop_inputs (s : State) : (s.pop).inputs = s.inputs := rfl
@[simp] theorem State.pop_cycle (s : State) : (s.pop).cycle = s.cycle := rfl

/-! ### nextInput -/

@[simp] theorem State.nextInput_v (s : State) : (s.nextInput).v = s.v := rfl
@[simp] theorem State.nextInput_index (s : State) : (s.nextInput).index = s.index := rfl
@[simp] theorem State.nextInput_pc (s : State) : (s.nextInput).pc = s.pc := rfl
@[simp] theorem State.nextInput_sp (s : State) : (s.nextInput).sp = s.sp := rfl
@[simp] theorem State.nextInput_stack (s : State) : (s.nextInput).stack = s.stack := rfl
@[simp] theorem State.nextInput_dt (s : State) : (s.nextInput).dt = s.dt := rfl
@[simp] theorem State.nextInput_st (s : State) : (s.nextInput).st = s.st := rfl
@[simp] theorem State.nextInput_mem (s : State) : (s.nextInput).mem = s.mem := rfl
@[simp] theorem State.nextInput_fb (s : State) : (s.nextInput).fb = s.fb := rfl
@[simp] theorem State.nextInput_outcome (s : State) : (s.nextInput).outcome = s.outcome := rfl
@[simp] theorem State.nextInput_initialized (s : State) :
    (s.nextInput).initialized = s.initialized := rfl
@[simp] theorem State.nextInput_inputs (s : State) : (s.nextInput).inputs = s.inputs.tail := rfl
@[simp] theorem State.nextInput_cycle (s : State) : (s.nextInput).cycle = s.cycle + 1 := rfl

/-! ### placeWord -/

@[simp] theorem State.placeWord_v (s : State) (w : Word) : (s.placeWord w).v = s.v := rfl
@[simp] theorem State.placeWord_index (s : State) (w : Word) :
    (s.placeWord w).index = s.index := rfl
@[simp] theorem State.placeWord_pc (s : State) (w : Word) : (s.placeWord w).pc = s.pc := rfl
@[simp] theorem State.placeWord_sp (s : State) (w : Word) : (s.placeWord w).sp = s.sp := rfl
@[simp] theorem State.placeWord_stack (s : State) (w : Word) :
    (s.placeWord w).stack = s.stack := rfl
@[simp] theorem State.placeWord_dt (s : State) (w : Word) : (s.placeWord w).dt = s.dt := rfl
@[simp] theorem State.placeWord_st (s : State) (w : Word) : (s.placeWord w).st = s.st := rfl
@[simp] theorem State.placeWord_mem (s : State) (w : Word) :
    (s.placeWord w).mem = Memory.writeBytes s.mem s.pc.toNat (bytesOfWord w) := rfl
@[simp] theorem State.placeWord_fb (s : State) (w : Word) : (s.placeWord w).fb = s.fb := rfl
@[simp] theorem State.placeWord_outcome (s : State) (w : Word) :
    (s.placeWord w).outcome = s.outcome := rfl
@[simp] theorem State.placeWord_initialized (s : State) (w : Word) :
    (s.placeWord w).initialized = s.initialized := rfl
@[simp] theorem State.placeWord_inputs (s : State) (w : Word) :
    (s.placeWord w).inputs = s.inputs := rfl
@[simp] theorem State.placeWord_cycle (s : State) (w : Word) :
    (s.placeWord w).cycle = s.cycle := rfl

/-! ### present and hostInitialize -/

@[simp] theorem present_v (keys : BitVec 16) (rand : Byte) (s : State) :
    (present keys rand s).v = s.v := rfl
@[simp] theorem present_index (keys : BitVec 16) (rand : Byte) (s : State) :
    (present keys rand s).index = s.index := rfl
@[simp] theorem present_pc (keys : BitVec 16) (rand : Byte) (s : State) :
    (present keys rand s).pc = s.pc := rfl
@[simp] theorem present_sp (keys : BitVec 16) (rand : Byte) (s : State) :
    (present keys rand s).sp = s.sp := rfl
@[simp] theorem present_stack (keys : BitVec 16) (rand : Byte) (s : State) :
    (present keys rand s).stack = s.stack := rfl
@[simp] theorem present_dt (keys : BitVec 16) (rand : Byte) (s : State) :
    (present keys rand s).dt = s.dt := rfl
@[simp] theorem present_st (keys : BitVec 16) (rand : Byte) (s : State) :
    (present keys rand s).st = s.st := rfl
@[simp] theorem present_mem (keys : BitVec 16) (rand : Byte) (s : State) :
    (present keys rand s).mem = s.mem := rfl
@[simp] theorem present_fb (keys : BitVec 16) (rand : Byte) (s : State) :
    (present keys rand s).fb = s.fb := rfl
@[simp] theorem present_outcome (keys : BitVec 16) (rand : Byte) (s : State) :
    (present keys rand s).outcome = s.outcome := rfl
@[simp] theorem present_initialized (keys : BitVec 16) (rand : Byte) (s : State) :
    (present keys rand s).initialized = s.initialized := rfl
@[simp] theorem present_inputs (keys : BitVec 16) (rand : Byte) (s : State) :
    (present keys rand s).inputs = ⟨keys, rand⟩ :: s.inputs := rfl
@[simp] theorem present_cycle (keys : BitVec 16) (rand : Byte) (s : State) :
    (present keys rand s).cycle = s.cycle := rfl

@[simp] theorem hostInitialize_v (s : State) : (hostInitialize s).v = State.reset.v := rfl
@[simp] theorem hostInitialize_index (s : State) : (hostInitialize s).index = State.reset.index := rfl
@[simp] theorem hostInitialize_pc (s : State) : (hostInitialize s).pc = State.reset.pc := rfl
@[simp] theorem hostInitialize_sp (s : State) : (hostInitialize s).sp = State.reset.sp := rfl
@[simp] theorem hostInitialize_stack (s : State) : (hostInitialize s).stack = State.reset.stack := rfl
@[simp] theorem hostInitialize_dt (s : State) : (hostInitialize s).dt = State.reset.dt := rfl
@[simp] theorem hostInitialize_st (s : State) : (hostInitialize s).st = State.reset.st := rfl
@[simp] theorem hostInitialize_mem (s : State) : (hostInitialize s).mem = State.reset.mem := rfl
@[simp] theorem hostInitialize_fb (s : State) : (hostInitialize s).fb = State.reset.fb := rfl
@[simp] theorem hostInitialize_outcome (s : State) : (hostInitialize s).outcome = State.reset.outcome := rfl
@[simp] theorem hostInitialize_initialized (s : State) : (hostInitialize s).initialized = State.reset.initialized := rfl
@[simp] theorem hostInitialize_inputs (s : State) : (hostInitialize s).inputs = s.inputs := rfl
@[simp] theorem hostInitialize_cycle (s : State) : (hostInitialize s).cycle = s.cycle := rfl

/-! ### Registers -/

/-- A write to register `x` is read back (R10). -/
@[simp] theorem State.reg_setReg_self (s : State) (x : RegIdx) (val : Byte) :
    (s.setReg x val).reg x = val := by
  simp [State.reg, State.setReg]

/-- A write to register `x` leaves every other register (R10). -/
theorem State.reg_setReg_of_ne (s : State) {x r : RegIdx} (val : Byte) (h : r ≠ x) :
    (s.setReg x val).reg r = s.reg r := by
  have : x.toNat ≠ r.toNat := fun e => h (BitVec.eq_of_toNat_eq e.symm)
  simp [State.reg, State.setReg, this]

/-- A register after a write to register `x` (R10). -/
theorem State.reg_setReg (s : State) (x r : RegIdx) (val : Byte) :
    (s.setReg x val).reg r = if r = x then val else s.reg r := by
  by_cases h : r = x
  · simp [h]
  · simp [h, State.reg_setReg_of_ne]

/-! A register read sees only the field `v`. -/

@[simp] theorem State.reg_setIndex (s : State) (val : Word) (r : RegIdx) :
    (s.setIndex val).reg r = s.reg r := rfl
@[simp] theorem State.reg_setPc (s : State) (val : Word) (r : RegIdx) :
    (s.setPc val).reg r = s.reg r := rfl
@[simp] theorem State.reg_setDt (s : State) (val : Byte) (r : RegIdx) :
    (s.setDt val).reg r = s.reg r := rfl
@[simp] theorem State.reg_setSt (s : State) (val : Byte) (r : RegIdx) :
    (s.setSt val).reg r = s.reg r := rfl
@[simp] theorem State.reg_setOutcome (s : State) (o : Transfer) (r : RegIdx) :
    (s.setOutcome o).reg r = s.reg r := rfl
@[simp] theorem State.reg_setFb (s : State) (f : Framebuffer) (r : RegIdx) :
    (s.setFb f).reg r = s.reg r := rfl
@[simp] theorem State.reg_memWrite (s : State) (a : Nat) (val : Byte) (r : RegIdx) :
    (s.memWrite a val).reg r = s.reg r := rfl
@[simp] theorem State.reg_writeRun (s : State) (a : Nat) (bytes : List Byte) (r : RegIdx) :
    (s.writeRun a bytes).reg r = s.reg r := rfl
@[simp] theorem State.reg_push (s : State) (ret : Word) (h : s.sp.toNat < 16) (r : RegIdx) :
    (s.push ret h).reg r = s.reg r := rfl
@[simp] theorem State.reg_pop (s : State) (r : RegIdx) :
    (s.pop).reg r = s.reg r := rfl
@[simp] theorem State.reg_nextInput (s : State) (r : RegIdx) :
    (s.nextInput).reg r = s.reg r := rfl
@[simp] theorem State.reg_placeWord (s : State) (w : Word) (r : RegIdx) :
    (s.placeWord w).reg r = s.reg r := rfl
@[simp] theorem reg_present (keys : BitVec 16) (rand : Byte) (s : State) (r : RegIdx) :
    (present keys rand s).reg r = s.reg r := rfl

/-! A memory read sees only the field `mem`. -/

@[simp] theorem State.memRead_setReg (s : State) (x : RegIdx) (val : Byte) (k : Nat) :
    (s.setReg x val).memRead k = s.memRead k := rfl
@[simp] theorem State.memRead_setIndex (s : State) (val : Word) (k : Nat) :
    (s.setIndex val).memRead k = s.memRead k := rfl
@[simp] theorem State.memRead_setPc (s : State) (val : Word) (k : Nat) :
    (s.setPc val).memRead k = s.memRead k := rfl
@[simp] theorem State.memRead_setDt (s : State) (val : Byte) (k : Nat) :
    (s.setDt val).memRead k = s.memRead k := rfl
@[simp] theorem State.memRead_setSt (s : State) (val : Byte) (k : Nat) :
    (s.setSt val).memRead k = s.memRead k := rfl
@[simp] theorem State.memRead_setOutcome (s : State) (o : Transfer) (k : Nat) :
    (s.setOutcome o).memRead k = s.memRead k := rfl
@[simp] theorem State.memRead_setFb (s : State) (f : Framebuffer) (k : Nat) :
    (s.setFb f).memRead k = s.memRead k := rfl
@[simp] theorem State.memRead_push (s : State) (ret : Word) (h : s.sp.toNat < 16) (k : Nat) :
    (s.push ret h).memRead k = s.memRead k := rfl
@[simp] theorem State.memRead_pop (s : State) (k : Nat) :
    (s.pop).memRead k = s.memRead k := rfl
@[simp] theorem State.memRead_nextInput (s : State) (k : Nat) :
    (s.nextInput).memRead k = s.memRead k := rfl
@[simp] theorem memRead_present (keys : BitVec 16) (rand : Byte) (s : State) (k : Nat) :
    (present keys rand s).memRead k = s.memRead k := rfl

/-! A pixel read sees only the field `fb`. -/

@[simp] theorem State.pixel_setReg (s : State) (r : RegIdx) (val : Byte) (y x : Nat) :
    (s.setReg r val).pixel y x = s.pixel y x := rfl
@[simp] theorem State.pixel_setIndex (s : State) (val : Word) (y x : Nat) :
    (s.setIndex val).pixel y x = s.pixel y x := rfl
@[simp] theorem State.pixel_setPc (s : State) (val : Word) (y x : Nat) :
    (s.setPc val).pixel y x = s.pixel y x := rfl
@[simp] theorem State.pixel_setDt (s : State) (val : Byte) (y x : Nat) :
    (s.setDt val).pixel y x = s.pixel y x := rfl
@[simp] theorem State.pixel_setSt (s : State) (val : Byte) (y x : Nat) :
    (s.setSt val).pixel y x = s.pixel y x := rfl
@[simp] theorem State.pixel_setOutcome (s : State) (o : Transfer) (y x : Nat) :
    (s.setOutcome o).pixel y x = s.pixel y x := rfl
@[simp] theorem State.pixel_memWrite (s : State) (a : Nat) (val : Byte) (y x : Nat) :
    (s.memWrite a val).pixel y x = s.pixel y x := rfl
@[simp] theorem State.pixel_writeRun (s : State) (a : Nat) (bytes : List Byte) (y x : Nat) :
    (s.writeRun a bytes).pixel y x = s.pixel y x := rfl
@[simp] theorem State.pixel_push (s : State) (ret : Word) (h : s.sp.toNat < 16) (y x : Nat) :
    (s.push ret h).pixel y x = s.pixel y x := rfl
@[simp] theorem State.pixel_pop (s : State) (y x : Nat) :
    (s.pop).pixel y x = s.pixel y x := rfl
@[simp] theorem State.pixel_nextInput (s : State) (y x : Nat) :
    (s.nextInput).pixel y x = s.pixel y x := rfl
@[simp] theorem State.pixel_placeWord (s : State) (w : Word) (y x : Nat) :
    (s.placeWord w).pixel y x = s.pixel y x := rfl
@[simp] theorem pixel_present (keys : BitVec 16) (rand : Byte) (s : State) (y x : Nat) :
    (present keys rand s).pixel y x = s.pixel y x := rfl

/-! ### Inputs -/

/-- The inputs the host presents are the inputs of the next cycle (R19, R20). -/
@[simp] theorem input_present (keys : BitVec 16) (rand : Byte) (s : State) :
    (present keys rand s).input = { keys := keys, rand := rand } := rfl

@[simp] theorem key_present (keys : BitVec 16) (rand : Byte) (s : State) (k : Nat) :
    (present keys rand s).key k = keys.getLsbD k := rfl

@[simp] theorem rand_present (keys : BitVec 16) (rand : Byte) (s : State) :
    (present keys rand s).rand = rand := rfl

end Sys2Proof.Machine
end

