-- ==== Sys2Proof/Laws/Memory.lean ====
section
/-! SUPPORT. The laws of the memory array (spec 20_memory.md R31, R32): every operation keeps the
canonical form; a read after a write; a run of bytes; and equal contents are equal data. -/

namespace Sys2Proof.Machine

theorem maskAddr_lt (a : Nat) : maskAddr a < 4096 := Nat.mod_lt _ (by decide)

/-- The canonical form of a listed entry and the rest. -/
theorem Memory.wf_cons (a : Nat) (v : Byte) (rest : Memory) :
    Memory.wf ((a, v) :: rest) = true ↔
      a < 4096 ∧ v ≠ Memory.initial a ∧ (∀ c ∈ rest, a < c.1) ∧ Memory.wf rest = true := by
  simp only [Memory.wf, Bool.and_eq_true, decide_eq_true_eq, List.all_eq_true, Config.memSize]
  tauto

/-- An address below every listed one reads as the reset contents. -/
theorem Memory.lookup_of_below (m : Memory) (a : Nat) (h : ∀ c ∈ m, a < c.1) :
    Memory.lookup m a = Memory.initial a := by
  induction m with
  | nil => rfl
  | cons c rest ih =>
    have hc := h c (by simp)
    rw [Memory.lookup, if_neg (by omega)]
    exact ih fun d hd => h d (by simp [hd])

/-- Every address an insertion lists was listed before, or is the inserted one. -/
theorem Memory.mem_insert (m : Memory) (a : Nat) (v : Byte) :
    ∀ c ∈ Memory.insert m a v, c.1 = a ∨ c ∈ m := by
  induction m with
  | nil => intro c; rw [Memory.insert]; split <;> simp +contextual
  | cons d rest ih =>
    intro c
    rw [Memory.insert]
    split_ifs <;> simp only [List.mem_cons] <;> intro h
    all_goals first
      | tauto
      | (rcases h with rfl | h
         · simp
         · tauto)
      | (rcases h with rfl | h
         · tauto
         · rcases ih c h with h | h <;> tauto)

/-- An insertion keeps the canonical form. -/
theorem Memory.insert_wf (m : Memory) (a : Nat) (v : Byte) (ha : a < 4096)
    (hm : Memory.wf m = true) : Memory.wf (Memory.insert m a v) = true := by
  induction m with
  | nil =>
    rw [Memory.insert]
    split_ifs with hv
    · rfl
    · exact (Memory.wf_cons a v []).2 ⟨ha, hv, by simp, rfl⟩
  | cons d rest ih =>
    obtain ⟨b, u⟩ := d
    obtain ⟨hb, hu, hlt, hrest⟩ := (Memory.wf_cons b u rest).1 hm
    rw [Memory.insert]
    split_ifs with h1 h2 h3 h4
    · exact hm
    · refine (Memory.wf_cons _ _ _).2 ⟨ha, h2, ?_, hm⟩
      intro c hc
      rcases List.mem_cons.1 hc with rfl | hc
      · exact h1
      · exact lt_trans h1 (hlt c hc)
    · exact hrest
    · exact (Memory.wf_cons _ _ _).2 ⟨ha, h4, h3 ▸ hlt, hrest⟩
    · refine (Memory.wf_cons _ _ _).2 ⟨hb, hu, ?_, ih hrest⟩
      intro c hc
      rcases Memory.mem_insert rest a v c hc with h | h
      · omega
      · exact hlt c h

/-- A lookup after an insertion: the inserted byte at its address, every other address as before. -/
theorem Memory.lookup_insert (m : Memory) (a k : Nat) (v : Byte) (hm : Memory.wf m = true) :
    Memory.lookup (Memory.insert m a v) k = if k = a then v else Memory.lookup m k := by
  induction m with
  | nil =>
    rw [Memory.insert]
    split_ifs with h1 h2 h3
    · rw [Memory.lookup, h1, h2]
    · rfl
    · rw [Memory.lookup, if_pos h3.symm]
    · simp [Memory.lookup, Ne.symm h3]
  | cons d rest ih =>
    obtain ⟨b, u⟩ := d
    obtain ⟨-, -, hlt, hrest⟩ := (Memory.wf_cons b u rest).1 hm
    have hbelow : ∀ j, j ≤ b → Memory.lookup rest j = Memory.initial j := fun j hj =>
      Memory.lookup_of_below rest j fun c hc => lt_of_le_of_lt hj (hlt c hc)
    rw [Memory.insert]
    split_ifs with h1 h2 h3 h4 h5 h6 h7 h8 h9
    · subst h3
      rw [Memory.lookup, if_neg (by omega), hbelow k (le_of_lt h1), h2]
    · rfl
    · simp [Memory.lookup, h4]
    · rw [Memory.lookup, if_neg (Ne.symm h4)]
    · rw [h7, hbelow a (le_of_eq h5), h6]
    · rw [Memory.lookup, if_neg (by omega)]
    · simp [Memory.lookup, h8]
    · rw [Memory.lookup, Memory.lookup, if_neg (by omega), if_neg (by omega)]
    · rw [Memory.lookup, if_neg (by omega), ih hrest, if_pos h9]
    · rw [Memory.lookup, Memory.lookup, ih hrest, if_neg h9]

/-- A write keeps the canonical form (R32). -/
theorem Memory.write_wf (m : Memory) (a : Nat) (v : Byte) (hm : Memory.wf m = true) :
    Memory.wf (Memory.write m a v) = true :=
  Memory.insert_wf m _ v (maskAddr_lt a) hm

/-- A read after a write: the byte written at every name of its address, every other address as
before (R31, R32). -/
theorem Memory.read_write (m : Memory) (a k : Nat) (v : Byte) (hm : Memory.wf m = true) :
    Memory.read (Memory.write m a v) k = if k % 4096 = a % 4096 then v else Memory.read m k :=
  Memory.lookup_insert m _ _ v hm

/-- A run of writes keeps the canonical form (R43). -/
theorem Memory.writeBytes_wf (bytes : List Byte) (m : Memory) (a : Nat) (hm : Memory.wf m = true) :
    Memory.wf (Memory.writeBytes m a bytes) = true := by
  induction bytes generalizing m a with
  | nil => exact hm
  | cons b rest ih => exact ih _ _ (Memory.write_wf m a b hm)

/-- A run of writes leaves every address that is none of the run's masked addresses (R31, R43). -/
theorem Memory.read_writeBytes_of_ne (bytes : List Byte) (m : Memory) (a k : Nat)
    (hm : Memory.wf m = true) (hk : ∀ i < bytes.length, k % 4096 ≠ (a + i) % 4096) :
    Memory.read (Memory.writeBytes m a bytes) k = Memory.read m k := by
  induction bytes generalizing m a with
  | nil => rfl
  | cons b rest ih =>
    rw [Memory.writeBytes, ih _ _ (Memory.write_wf m a b hm), Memory.read_write m a k b hm,
      if_neg (by simpa using hk 0 (by simp))]
    intro i hi
    have := hk (i + 1) (by simpa using hi)
    rwa [show a + 1 + i = a + (i + 1) by omega]

/-- A run of at most 4096 bytes is read back byte by byte (R31, R43). -/
theorem Memory.read_writeBytes (bytes : List Byte) (m : Memory) (a i : Nat)
    (hm : Memory.wf m = true) (hlen : bytes.length ≤ 4096) (hi : i < bytes.length) :
    Memory.read (Memory.writeBytes m a bytes) (a + i) = bytes[i] := by
  induction bytes generalizing m a i with
  | nil => simp at hi
  | cons b rest ih =>
    rw [Memory.writeBytes]
    simp only [List.length_cons] at hlen hi
    cases i with
    | zero =>
      rw [Memory.read_writeBytes_of_ne rest _ _ _ (Memory.write_wf m a b hm) (by intro j hj; omega),
        Memory.read_write m a _ b hm]
      simp
    | succ i =>
      have := ih _ (a + 1) i (Memory.write_wf m a b hm) (by omega) (by omega)
      rw [show a + 1 + i = a + (i + 1) by omega] at this
      simpa using this

/-- Writes at addresses that agree modulo 4096 are the same write (R31). -/
theorem Memory.writeBytes_congr (bytes : List Byte) (m : Memory) (a b : Nat)
    (h : a % 4096 = b % 4096) : Memory.writeBytes m a bytes = Memory.writeBytes m b bytes := by
  induction bytes generalizing m a b with
  | nil => rfl
  | cons v rest ih =>
    have hw : Memory.write m a v = Memory.write m b v := by
      unfold Memory.write maskAddr; rw [show a % Config.memSize = b % Config.memSize from h]
    rw [Memory.writeBytes, Memory.writeBytes, hw]
    exact ih _ _ _ (by omega)

/-- Reads at addresses that agree modulo 4096 are the same read (R31). -/
theorem Memory.read_congr (m : Memory) {a b : Nat} (h : a % 4096 = b % 4096) :
    Memory.read m a = Memory.read m b := by
  unfold Memory.read maskAddr; rw [show a % Config.memSize = b % Config.memSize from h]

/-- Two memories in canonical form that read alike are the same data. -/
theorem Memory.ext_of_wf (m n : Memory) (hm : Memory.wf m = true) (hn : Memory.wf n = true)
    (h : ∀ a, Memory.lookup m a = Memory.lookup n a) : m = n := by
  induction m generalizing n with
  | nil =>
    cases n with
    | nil => rfl
    | cons d rest =>
      obtain ⟨-, hu, -, -⟩ := (Memory.wf_cons d.1 d.2 rest).1 hn
      exact absurd (by simpa [Memory.lookup] using (h d.1).symm) hu
  | cons c rest ih =>
    obtain ⟨a, v⟩ := c
    obtain ⟨-, hv, hlt, hrest⟩ := (Memory.wf_cons a v rest).1 hm
    cases n with
    | nil => exact absurd (by simpa [Memory.lookup] using h a) hv
    | cons d rest' =>
      obtain ⟨b, u⟩ := d
      obtain ⟨-, hu, hlt', hrest'⟩ := (Memory.wf_cons b u rest').1 hn
      have hab : a = b := by
        rcases lt_trichotomy a b with hl | he | hl
        · have := h a
          rw [Memory.lookup, if_pos rfl, Memory.lookup_of_below _ a] at this
          · exact absurd this hv
          · intro c hc
            rcases List.mem_cons.1 hc with rfl | hc
            · exact hl
            · exact lt_trans hl (hlt' c hc)
        · exact he
        · have := h b
          rw [Memory.lookup_of_below, Memory.lookup, if_pos rfl] at this
          · exact absurd this.symm hu
          · intro c hc
            rcases List.mem_cons.1 hc with rfl | hc
            · exact hl
            · exact lt_trans hl (hlt c hc)
      subst hab
      have huv : v = u := by simpa [Memory.lookup] using h a
      subst huv
      congr 1
      refine ih rest' hrest hrest' fun k => ?_
      by_cases hk : k ≤ a
      · rw [Memory.lookup_of_below _ k fun c hc => lt_of_le_of_lt hk (hlt c hc),
          Memory.lookup_of_below _ k fun c hc => lt_of_le_of_lt hk (hlt' c hc)]
      · have := h k
        rwa [Memory.lookup, if_neg (by omega), Memory.lookup, if_neg (by omega)] at this

/-- The reset memory is in canonical form (R24). -/
theorem reset_mem_wf : Memory.wf State.reset.mem = true := rfl

end Sys2Proof.Machine
end

