-- ==== Sys2Proof/Laws/Ops.lean ====
section
/-! SUPPORT. One lemma per shared operation: everything it can do, for the proofs to cite. -/

namespace Sys2Proof.Machine

/-! ### The end of an instruction and the call stack -/

/-- A handler that completes answers the state with its outcome (R72). -/
@[simp] theorem complete_eq (t : Transfer) (s : State) : complete t s = .next (s.setOutcome t) := rfl

/-- A conditional skip always completes (R72). -/
@[simp] theorem skipIf_eq (c : Bool) (s : State) :
    skipIf c s = .next (s.setOutcome (if c then .skip else .normal)) := rfl

/-- A push with room: the entry at `SP` is written and `SP` goes up by one (R14). -/
theorem pushThen_of_lt {s : State} (ret : Word) (k : State → Result) (h : s.sp.toNat < 16) :
    pushThen s ret k = k (s.push ret h) :=
  dif_pos h

/-- A push with `SP = 16` is the overflow fault (R141). -/
theorem pushThen_of_full {s : State} (ret : Word) (k : State → Result) (h : s.sp = 16#5) :
    pushThen s ret k = .fault .stackOverflow := by
  have : ¬ s.sp.toNat < 16 := by rw [h]; decide
  rw [pushThen, dif_neg this, if_pos h]; rfl

/-- A push with `SP` above 16 has no meaning (assumption 5). -/
theorem pushThen_of_gt {s : State} (ret : Word) (k : State → Result) (h : 16 < s.sp.toNat) :
    pushThen s ret k = .refused .stackCountOutOfRange := by
  have : s.sp ≠ 16#5 := by intro e; rw [e] at h; exact absurd h (by decide)
  rw [pushThen, dif_neg (by omega), if_neg this]

/-- A pop of a nonempty stack: `SP` goes down by one and the entry there is read (R14). -/
theorem popThen_of_pos {s : State} (k : Word → State → Result) (h0 : 0 < s.sp.toNat)
    (h : s.sp.toNat ≤ 16) :
    popThen s k = k s.stack[s.sp.toNat - 1] s.pop := by
  have hz : s.sp ≠ 0#5 := by intro e; rw [e] at h0; exact absurd h0 (by decide)
  have hlt : s.sp.toNat - 1 < 16 := by omega
  rw [popThen, if_neg hz, dif_pos hlt]

/-- A pop with `SP = 0` is the underflow fault (R142). -/
theorem popThen_of_empty {s : State} (k : Word → State → Result) (h : s.sp = 0#5) :
    popThen s k = .fault .stackUnderflow := if_pos h

/-- A pop with `SP` above 16 has no meaning (assumption 5). -/
theorem popThen_of_gt {s : State} (k : Word → State → Result) (h : 16 < s.sp.toNat) :
    popThen s k = .refused .stackCountOutOfRange := by
  have hz : s.sp ≠ 0#5 := by intro e; rw [e] at h; exact absurd h (by decide)
  rw [popThen, if_neg hz, dif_neg (by omega)]

/-! ### The framebuffer -/

/-- Pixels of the cleared framebuffer (R121). -/
@[simp] theorem Framebuffer.pixel_clear (y x : Nat) : Framebuffer.pixel Framebuffer.clear y x = false := by
  simp [Framebuffer.pixel, Framebuffer.clear]

/-- A flip changes its own pixel and no other (R120, R122). -/
theorem Framebuffer.pixel_flip (f : Framebuffer) (y x y' x' : Nat) :
    Framebuffer.pixel (Framebuffer.flip f y x) y' x'
      = (Framebuffer.pixel f y' x' ^^ decide (y' % 32 = y % 32 ∧ x' % 64 = x % 64)) := by
  have hx : x' % 64 < 64 := Nat.mod_lt _ (by decide)
  unfold Framebuffer.pixel Framebuffer.flip
  by_cases hy : y % 32 = y' % 32
  · simp only [Vector.getElem_set, hy, if_true, BitVec.getLsbD_xor, BitVec.getLsbD_twoPow]
    by_cases hxx : x % 64 = x' % 64
    · simp [hxx, hx]
    · simp [hxx, Ne.symm hxx]
  · simp [hy, Ne.symm hy]

/-- Two framebuffers with the same pixels are the same (R120). -/
theorem Framebuffer.ext_pixel (f g : Framebuffer)
    (h : ∀ y x, y < 32 → x < 64 → Framebuffer.pixel f y x = Framebuffer.pixel g y x) : f = g := by
  apply Vector.ext
  intro y hy
  apply BitVec.eq_of_getLsbD_eq
  intro x hx
  have := h y x hy hx
  simpa [Framebuffer.pixel, Nat.mod_eq_of_lt hy, Nat.mod_eq_of_lt hx] using this

/-! ### The register block -/

@[simp] theorem State.length_regBlock (s : State) (n : Nat) : (s.regBlock n).length = n := by
  simp [State.regBlock]

/-- Byte `i` of the stored block is `V[i]` (R114). -/
theorem State.getElem_regBlock (s : State) (n i : Nat) (h : i < (s.regBlock n).length) :
    (s.regBlock n)[i] = s.reg (BitVec.ofNat 4 i) := by
  simp [State.regBlock]

/-- A block load writes registers and nothing else (R115). -/
theorem loadRegsFrom_eq (s : State) (i n : Nat) :
    loadRegsFrom s i n = { s with v := (loadRegsFrom s i n).v } := by
  induction n generalizing s i with
  | zero => rfl
  | succ n ih => rw [loadRegsFrom, ih]; rfl

/-- What a block load leaves in a register: the byte of its own address when it is in the block, its
old value when it is not (R115). -/
theorem reg_loadRegsFrom (s : State) (i n : Nat) (hn : i + n ≤ 16) (r : RegIdx) :
    (loadRegsFrom s i n).reg r
      = if i ≤ r.toNat ∧ r.toNat < i + n then s.memRead (s.indexed r.toNat) else s.reg r := by
  induction n generalizing s i with
  | zero => rw [loadRegsFrom, if_neg (by omega)]
  | succ n ih =>
    rw [loadRegsFrom, ih _ _ (by omega), State.reg_setReg]
    by_cases he : r = BitVec.ofNat 4 i
    · have hr : r.toNat = i := by rw [he, BitVec.toNat_ofNat]; omega
      rw [if_neg (by omega), if_pos he, if_pos (by omega), hr]
    · have hr : r.toNat ≠ i := by
        intro e; exact he (BitVec.eq_of_toNat_eq (by rw [BitVec.toNat_ofNat]; omega))
      rw [if_neg he]
      by_cases hc : i + 1 ≤ r.toNat ∧ r.toNat < i + 1 + n
      · rw [if_pos hc, if_pos (by omega)]; rfl
      · rw [if_neg hc, if_neg (by omega)]

/-! ### The key wait -/

/-- The scan stops at the first pressed candidate, or finds none (R132). -/
theorem firstPressed_eq_find (s : State) (ks : List Nat) :
    s.firstPressed ks = ks.find? (fun k => s.key k) := by
  induction ks with
  | nil => rfl
  | cons k rest ih =>
    by_cases h : s.key k <;> simp [State.firstPressed, h, ih]

/-! ### The cycle -/

/-- A completed handler ends in a completed cycle (R70). -/
theorem step_of_next {s t : State} (hi : s.initialized = true) (h : exec s.current s = .next t) :
    step s = .next t.endCycle := by
  simp [step, whenInitialized, hi, h, endOfCycle]

/-- A fault of the handler is the fault of the step (R74). -/
theorem step_of_fault {s : State} {f : Fault} (hi : s.initialized = true)
    (h : exec s.current s = .fault f) : step s = .fault f := by
  simp [step, whenInitialized, hi, h, endOfCycle]

/-- What a completed step is: the handler's state, its PC advanced, its timers ticked and its input
spent (R70). -/
theorem step_cases {s u : State} (h : step s = .next u) :
    s.initialized = true ∧ ∃ t, exec s.current s = .next t ∧ u = t.endCycle := by
  unfold step whenInitialized at h
  split at h
  next hi =>
    refine ⟨hi, ?_⟩
    cases he : exec s.current s with
    | next t =>
      rw [he] at h
      injection h with h
      exact ⟨t, rfl, h.symm⟩
    | fault f => rw [he] at h; cases h
    | refused r => rw [he] at h; cases h
  next => cases h

@[simp] theorem State.endCycle_pc (s : State) : s.endCycle.pc = s.pc + advanceOf s.outcome := rfl
@[simp] theorem State.endCycle_dt (s : State) : s.endCycle.dt = tick s.dt := rfl
@[simp] theorem State.endCycle_st (s : State) : s.endCycle.st = tick s.st := rfl
@[simp] theorem State.endCycle_v (s : State) : s.endCycle.v = s.v := rfl
@[simp] theorem State.endCycle_index (s : State) : s.endCycle.index = s.index := rfl
@[simp] theorem State.endCycle_sp (s : State) : s.endCycle.sp = s.sp := rfl
@[simp] theorem State.endCycle_stack (s : State) : s.endCycle.stack = s.stack := rfl
@[simp] theorem State.endCycle_mem (s : State) : s.endCycle.mem = s.mem := rfl
@[simp] theorem State.endCycle_fb (s : State) : s.endCycle.fb = s.fb := rfl
@[simp] theorem State.endCycle_outcome (s : State) : s.endCycle.outcome = s.outcome := rfl
@[simp] theorem State.endCycle_initialized (s : State) : s.endCycle.initialized = s.initialized := rfl
@[simp] theorem State.endCycle_inputs (s : State) : s.endCycle.inputs = s.inputs.tail := rfl
@[simp] theorem State.endCycle_cycle (s : State) : s.endCycle.cycle = s.cycle + 1 := rfl

/-- One tick: down by one, floor 0 (R73). -/
theorem tick_toNat (t : Byte) : (tick t).toNat = t.toNat - 1 := by
  unfold tick
  split
  · next h => rw [h]; rfl
  · next h =>
    have : t.toNat ≠ 0 := fun e => h (BitVec.eq_of_toNat_eq (by simpa using e))
    have := t.isLt
    rw [BitVec.toNat_sub]; simp; omega

end Sys2Proof.Machine
end

