-- ==== Sys2Proof/Laws/PerInstr.lean ====
section
/-! SUPPORT. Statements made of every instruction, one lemma per constructor. -/

namespace Sys2Proof.Laws

/-- The family nibble of an instruction, from the first-level map of spec 30_encoding.md R51. -/
def FamilyNibble.nibble : Instr → Nat
  | .cls => 0x0
  | .ret => 0x0
  | .jp _ => 0x1
  | .call _ => 0x2
  | .seImm _ _ => 0x3
  | .sneImm _ _ => 0x4
  | .seReg _ _ _ => 0x5
  | .ldImm _ _ => 0x6
  | .addImm _ _ => 0x7
  | .ldReg _ _ => 0x8
  | .orReg _ _ => 0x8
  | .andReg _ _ => 0x8
  | .xorReg _ _ => 0x8
  | .addReg _ _ => 0x8
  | .subReg _ _ => 0x8
  | .shr _ _ => 0x8
  | .subnReg _ _ => 0x8
  | .shl _ _ => 0x8
  | .sneReg _ _ _ => 0x9
  | .ldI _ => 0xA
  | .jpV0 _ => 0xB
  | .rnd _ _ => 0xC
  | .draw _ _ _ => 0xD
  | .skp _ => 0xE
  | .sknp _ => 0xE
  | .ldVxDt _ => 0xF
  | .ldVxK _ => 0xF
  | .ldDtVx _ => 0xF
  | .ldStVx _ => 0xF
  | .addI _ => 0xF
  | .ldF _ => 0xF
  | .ldB _ => 0xF
  | .stRegs _ => 0xF
  | .ldRegs _ => 0xF
  | .nopSys _ => 0x0
  | .nopAlu _ _ _ => 0x8
  | .nopKey _ _ => 0xE
  | .nopMisc _ _ => 0xF

/-- The high nibble of the assembled word is the instruction's family (R51, R62): no field spills into
it. -/
def FamilyNibble.Statement (i : Instr) : Prop :=
  (fieldFamily (encode i)).toNat = FamilyNibble.nibble i

/-- A word assembled from a family nibble and a remainder below 4096 has that family. -/
theorem FamilyNibble.family_ofNat (f r : Nat) (hf : f < 16) (hr : r < 4096) :
    (fieldFamily (BitVec.ofNat 16 (f * 4096 + r))).toNat = f := by
  rw [fieldFamily_toNat, BitVec.toNat_ofNat]; omega

/-- Shape `family, NNN`. -/
theorem FamilyNibble.of_addr (f : Nat) (nnn : Addr) (hf : f < 16) :
    (fieldFamily (BitVec.ofNat 16 (f * 4096 + nnn.toNat))).toNat = f :=
  FamilyNibble.family_ofNat f _ hf nnn.isLt

/-- Shape `family, X, KK`. -/
theorem FamilyNibble.of_imm (f : Nat) (x : RegIdx) (kk : Byte) (hf : f < 16) :
    (fieldFamily (BitVec.ofNat 16 (f * 4096 + x.toNat * 256 + kk.toNat))).toNat = f := by
  have := x.isLt
  have := kk.isLt
  rw [Nat.add_assoc]; exact FamilyNibble.family_ofNat f _ hf (by omega)

/-- Shape `family, X` with a fixed low byte. -/
theorem FamilyNibble.of_single (f c : Nat) (x : RegIdx) (hf : f < 16) (hc : c < 256) :
    (fieldFamily (BitVec.ofNat 16 (f * 4096 + c + x.toNat * 256))).toNat = f := by
  have := x.isLt
  rw [Nat.add_assoc]; exact FamilyNibble.family_ofNat f _ hf (by omega)

/-- Shape `family, X, Y` with a fixed low nibble. -/
theorem FamilyNibble.of_pair (f c : Nat) (x y : RegIdx) (hf : f < 16) (hc : c < 16) :
    (fieldFamily (BitVec.ofNat 16 (f * 4096 + c + x.toNat * 256 + y.toNat * 16))).toNat = f := by
  have := x.isLt
  have := y.isLt
  rw [Nat.add_assoc, Nat.add_assoc]; exact FamilyNibble.family_ofNat f _ hf (by omega)

/-- Shape `family, X, Y, N`. -/
theorem FamilyNibble.of_reg (f : Nat) (x y : RegIdx) (n : Nibble) (hf : f < 16) :
    (fieldFamily (BitVec.ofNat 16 (f * 4096 + x.toNat * 256 + y.toNat * 16 + n.toNat))).toNat = f := by
  have := x.isLt
  have := y.isLt
  have := n.isLt
  rw [Nat.add_assoc, Nat.add_assoc]; exact FamilyNibble.family_ofNat f _ hf (by omega)

theorem FamilyNibble.cls : FamilyNibble.Statement .cls := rfl

theorem FamilyNibble.ret : FamilyNibble.Statement .ret := rfl

theorem FamilyNibble.jp (nnn : Addr) : FamilyNibble.Statement (.jp nnn) :=
  FamilyNibble.of_addr 1 nnn (by decide)

theorem FamilyNibble.call (nnn : Addr) : FamilyNibble.Statement (.call nnn) :=
  FamilyNibble.of_addr 2 nnn (by decide)

theorem FamilyNibble.seImm (x : RegIdx) (kk : Byte) : FamilyNibble.Statement (.seImm x kk) :=
  FamilyNibble.of_imm 3 x kk (by decide)

theorem FamilyNibble.sneImm (x : RegIdx) (kk : Byte) : FamilyNibble.Statement (.sneImm x kk) :=
  FamilyNibble.of_imm 4 x kk (by decide)

theorem FamilyNibble.seReg (x y : RegIdx) (n : Nibble) : FamilyNibble.Statement (.seReg x y n) :=
  FamilyNibble.of_reg 5 x y n (by decide)

theorem FamilyNibble.ldImm (x : RegIdx) (kk : Byte) : FamilyNibble.Statement (.ldImm x kk) :=
  FamilyNibble.of_imm 6 x kk (by decide)

theorem FamilyNibble.addImm (x : RegIdx) (kk : Byte) : FamilyNibble.Statement (.addImm x kk) :=
  FamilyNibble.of_imm 7 x kk (by decide)

theorem FamilyNibble.ldReg (x y : RegIdx) : FamilyNibble.Statement (.ldReg x y) :=
  FamilyNibble.of_pair 8 0 x y (by decide) (by decide)

theorem FamilyNibble.orReg (x y : RegIdx) : FamilyNibble.Statement (.orReg x y) :=
  FamilyNibble.of_pair 8 1 x y (by decide) (by decide)

theorem FamilyNibble.andReg (x y : RegIdx) : FamilyNibble.Statement (.andReg x y) :=
  FamilyNibble.of_pair 8 2 x y (by decide) (by decide)

theorem FamilyNibble.xorReg (x y : RegIdx) : FamilyNibble.Statement (.xorReg x y) :=
  FamilyNibble.of_pair 8 3 x y (by decide) (by decide)

theorem FamilyNibble.addReg (x y : RegIdx) : FamilyNibble.Statement (.addReg x y) :=
  FamilyNibble.of_pair 8 4 x y (by decide) (by decide)

theorem FamilyNibble.subReg (x y : RegIdx) : FamilyNibble.Statement (.subReg x y) :=
  FamilyNibble.of_pair 8 5 x y (by decide) (by decide)

theorem FamilyNibble.shr (x y : RegIdx) : FamilyNibble.Statement (.shr x y) :=
  FamilyNibble.of_pair 8 6 x y (by decide) (by decide)

theorem FamilyNibble.subnReg (x y : RegIdx) : FamilyNibble.Statement (.subnReg x y) :=
  FamilyNibble.of_pair 8 7 x y (by decide) (by decide)

theorem FamilyNibble.shl (x y : RegIdx) : FamilyNibble.Statement (.shl x y) :=
  FamilyNibble.of_pair 8 14 x y (by decide) (by decide)

theorem FamilyNibble.sneReg (x y : RegIdx) (n : Nibble) : FamilyNibble.Statement (.sneReg x y n) :=
  FamilyNibble.of_reg 9 x y n (by decide)

theorem FamilyNibble.ldI (nnn : Addr) : FamilyNibble.Statement (.ldI nnn) :=
  FamilyNibble.of_addr 10 nnn (by decide)

theorem FamilyNibble.jpV0 (nnn : Addr) : FamilyNibble.Statement (.jpV0 nnn) :=
  FamilyNibble.of_addr 11 nnn (by decide)

theorem FamilyNibble.rnd (x : RegIdx) (kk : Byte) : FamilyNibble.Statement (.rnd x kk) :=
  FamilyNibble.of_imm 12 x kk (by decide)

theorem FamilyNibble.draw (x y : RegIdx) (n : Nibble) : FamilyNibble.Statement (.draw x y n) :=
  FamilyNibble.of_reg 13 x y n (by decide)

theorem FamilyNibble.skp (x : RegIdx) : FamilyNibble.Statement (.skp x) :=
  FamilyNibble.of_single 14 158 x (by decide) (by decide)

theorem FamilyNibble.sknp (x : RegIdx) : FamilyNibble.Statement (.sknp x) :=
  FamilyNibble.of_single 14 161 x (by decide) (by decide)

theorem FamilyNibble.ldVxDt (x : RegIdx) : FamilyNibble.Statement (.ldVxDt x) :=
  FamilyNibble.of_single 15 7 x (by decide) (by decide)

theorem FamilyNibble.ldVxK (x : RegIdx) : FamilyNibble.Statement (.ldVxK x) :=
  FamilyNibble.of_single 15 10 x (by decide) (by decide)

theorem FamilyNibble.ldDtVx (x : RegIdx) : FamilyNibble.Statement (.ldDtVx x) :=
  FamilyNibble.of_single 15 21 x (by decide) (by decide)

theorem FamilyNibble.ldStVx (x : RegIdx) : FamilyNibble.Statement (.ldStVx x) :=
  FamilyNibble.of_single 15 24 x (by decide) (by decide)

theorem FamilyNibble.addI (x : RegIdx) : FamilyNibble.Statement (.addI x) :=
  FamilyNibble.of_single 15 30 x (by decide) (by decide)

theorem FamilyNibble.ldF (x : RegIdx) : FamilyNibble.Statement (.ldF x) :=
  FamilyNibble.of_single 15 41 x (by decide) (by decide)

theorem FamilyNibble.ldB (x : RegIdx) : FamilyNibble.Statement (.ldB x) :=
  FamilyNibble.of_single 15 51 x (by decide) (by decide)

theorem FamilyNibble.stRegs (x : RegIdx) : FamilyNibble.Statement (.stRegs x) :=
  FamilyNibble.of_single 15 85 x (by decide) (by decide)

theorem FamilyNibble.ldRegs (x : RegIdx) : FamilyNibble.Statement (.ldRegs x) :=
  FamilyNibble.of_single 15 101 x (by decide) (by decide)

theorem FamilyNibble.nopSys (nnn : Addr) : FamilyNibble.Statement (.nopSys nnn) :=
  FamilyNibble.of_addr 0 nnn (by decide)

theorem FamilyNibble.nopAlu (x y : RegIdx) (n : Nibble) : FamilyNibble.Statement (.nopAlu x y n) :=
  FamilyNibble.of_reg 8 x y n (by decide)

theorem FamilyNibble.nopKey (x : RegIdx) (kk : Byte) : FamilyNibble.Statement (.nopKey x kk) :=
  FamilyNibble.of_imm 14 x kk (by decide)

theorem FamilyNibble.nopMisc (x : RegIdx) (kk : Byte) : FamilyNibble.Statement (.nopMisc x kk) :=
  FamilyNibble.of_imm 15 x kk (by decide)

end Sys2Proof.Laws
end

