-- ==== Sys2Proof/Laws/Run.lean ====
section
/-! SUPPORT. The two definitions of a run, one step at a time, and the induction over a run, once. -/

namespace Sys2Proof.Machine

@[simp] theorem runSteps_zero (s : State) : runSteps 0 s = .next s := rfl

theorem runSteps_succ_of_next {s t : State} (n : Nat) (h : step s = .next t) :
    runSteps (n + 1) s = runSteps n t := by rw [runSteps, h]

theorem runSteps_succ_of_fault {s : State} {f : Fault} (n : Nat) (h : step s = .fault f) :
    runSteps (n + 1) s = .fault f := by rw [runSteps, h]

theorem runSteps_succ_of_refused {s : State} {r : Refusal} (n : Nat) (h : step s = .refused r) :
    runSteps (n + 1) s = .refused r := by rw [runSteps, h]

/-- A run of at least one step that completes is a step that completes and the rest of the run. -/
theorem runSteps_succ_cases {s u : State} {n : Nat} (h : runSteps (n + 1) s = .next u) :
    ∃ t, step s = .next t ∧ runSteps n t = .next u := by
  cases hs : step s with
  | next t => exact ⟨t, rfl, (runSteps_succ_of_next n hs).symm.trans h⟩
  | fault f => rw [runSteps_succ_of_fault n hs] at h; cases h
  | refused r => rw [runSteps_succ_of_refused n hs] at h; cases h

/-- What every step keeps, every run keeps. -/
theorem runSteps_keeps {P : State → Prop} (hstep : ∀ s t, P s → step s = .next t → P t) {n : Nat} :
    ∀ {s u : State}, P s → runSteps n s = .next u → P u := by
  induction n with
  | zero => intro s u hs h; cases h; exact hs
  | succ n ih =>
    intro s u hs h
    obtain ⟨t, ht, hu⟩ := runSteps_succ_cases h
    exact ih (hstep s t hs ht) hu

theorem runToEnd_of_endsRun {s : State} (n : Nat) (h : endsRun s) : runToEnd n s = some s := by
  cases n <;> exact if_pos h

theorem runToEnd_zero_of_not {s : State} (h : ¬ endsRun s) : runToEnd 0 s = none := if_neg h

theorem runToEnd_succ_of_next {s t : State} (n : Nat) (h : ¬ endsRun s) (hs : step s = .next t) :
    runToEnd (n + 1) s = runToEnd n t := by rw [runToEnd, if_neg h, hs]

/-- A run that comes to its end is there already, or steps and comes to it from the next state. -/
theorem runToEnd_cases {s t : State} {n : Nat} (h : runToEnd n s = some t) :
    (endsRun s ∧ t = s)
      ∨ ∃ m u, n = m + 1 ∧ ¬ endsRun s ∧ step s = .next u ∧ runToEnd m u = some t := by
  by_cases he : endsRun s
  · rw [runToEnd_of_endsRun n he] at h
    exact .inl ⟨he, (Option.some.inj h).symm⟩
  · cases n with
    | zero => rw [runToEnd_zero_of_not he] at h; cases h
    | succ m =>
      rw [runToEnd, if_neg he] at h
      cases hs : step s with
      | next u => rw [hs] at h; exact .inr ⟨m, u, rfl, he, rfl, h⟩
      | fault f => rw [hs] at h; cases h
      | refused r => rw [hs] at h; cases h

end Sys2Proof.Machine
end

