-- ==== Sys2Proof/Tests/Slice0.lean ====
section
/-! SUPPORT. The model's own tests: the decoding of words written out from the spec's encodings, the
well-formedness checks, one step of each instruction on vectors of spec 95_test_vectors.md, and a
witness for the hypotheses of each statement. -/

open Sys2Proof Sys2Proof.Machine Sys2Proof.Claims

namespace Sys2Proof.Tests

/-! ### Helpers -/

/-- The reset state with a word at PC. -/
def start (w : Nat) : State := State.reset.withFetchWord 16 w

/-- Registers set from a list of (number, value). -/
def withRegs (s : State) : List (RegIdx × Byte) → State
  | [] => s
  | (x, v) :: rest => withRegs (s.setReg x v) rest

/-- The state after one step, tested. -/
def stepGives (s : State) (p : State → Bool) : Bool :=
  match step s with
  | .next t => p t
  | .fault _ => false
  | .refused _ => false

/-! ### Decoding (words written out from 30_encoding.md R51 to R55, vectors V-E1 to V-E28) -/

theorem test_decode_sys : decodeWord 0b0000000011100000 = .cls ∧ decodeWord 0b0000000011101110 = .ret
    ∧ decodeWord 0b0000000011100001 = .nopSys 0x0E1 ∧ decodeWord 0b0000000111100000 = .nopSys 0x1E0 := by
  decide

theorem test_decode_address : decodeWord 0b0001101010111100 = .jp 0xABC
    ∧ decodeWord 0b0010101010111100 = .call 0xABC ∧ decodeWord 0b1010000100100011 = .ldI 0x123
    ∧ decodeWord 0b1011000100100011 = .jpV0 0x123 := by decide

theorem test_decode_immediate : decodeWord 0b0011101011111111 = .seImm 0xA 0xFF
    ∧ decodeWord 0b0100101000000000 = .sneImm 0xA 0x00 ∧ decodeWord 0b0110000000000101 = .ldImm 0x0 0x05
    ∧ decodeWord 0b0111111100000001 = .addImm 0xF 0x01 ∧ decodeWord 0b1100001100001111 = .rnd 0x3 0x0F := by
  decide

theorem test_decode_compare_registers : decodeWord 0b0101101010110111 = .seReg 0xA 0xB 0x7
    ∧ decodeWord 0b1001101010111111 = .sneReg 0xA 0xB 0xF := by decide

theorem test_decode_alu : decodeWord 0b1000101010110000 = .ldReg 0xA 0xB
    ∧ decodeWord 0b1000101010110001 = .orReg 0xA 0xB ∧ decodeWord 0b1000101010110010 = .andReg 0xA 0xB
    ∧ decodeWord 0b1000101010110011 = .xorReg 0xA 0xB ∧ decodeWord 0b1000101010110100 = .addReg 0xA 0xB := by
  decide

theorem test_decode_alu_rest : decodeWord 0b1000101010110101 = .subReg 0xA 0xB
    ∧ decodeWord 0b1000101010110110 = .shr 0xA 0xB ∧ decodeWord 0b1000101010110111 = .subnReg 0xA 0xB
    ∧ decodeWord 0b1000101010111110 = .shl 0xA 0xB ∧ decodeWord 0b1000101010111000 = .nopAlu 0xA 0xB 0x8 := by
  decide

theorem test_decode_draw : decodeWord 0b1101000100100101 = .draw 0x1 0x2 0x5 := by decide

theorem test_decode_keys : decodeWord 0b1110010110011110 = .skp 0x5
    ∧ decodeWord 0b1110010110100001 = .sknp 0x5 ∧ decodeWord 0b1110010100011110 = .nopKey 0x5 0x1E := by
  decide

theorem test_decode_misc : decodeWord 0b1111001100000111 = .ldVxDt 0x3
    ∧ decodeWord 0b1111001100001010 = .ldVxK 0x3 ∧ decodeWord 0b1111001100010101 = .ldDtVx 0x3
    ∧ decodeWord 0b1111001100011000 = .ldStVx 0x3 ∧ decodeWord 0b1111001100011110 = .addI 0x3 := by decide

theorem test_decode_misc_rest : decodeWord 0b1111001100101001 = .ldF 0x3
    ∧ decodeWord 0b1111001100110011 = .ldB 0x3 ∧ decodeWord 0b1111001101010101 = .stRegs 0x3
    ∧ decodeWord 0b1111001101100101 = .ldRegs 0x3 ∧ decodeWord 0b1111001101110101 = .nopMisc 0x3 0x75 := by
  decide

/-- The source's example (R62): `LD V0, 5`, `LD V1, 3`, `ADD V0, V1`. -/
theorem test_encode_source_example : encode (.ldImm 0 5) = 0x6005 ∧ encode (.ldImm 1 3) = 0x6103
    ∧ encode (.addReg 0 1) = 0x8014 := by decide

/-- Big-endian bytes (R33), and the one byte list that is no instruction (R45). -/
theorem test_decode_bytes : decodeBytes [0x80, 0x14] = .ok (.addReg 0 1, [])
    ∧ decodeBytes [0x80] = .error .truncated := ⟨rfl, rfl⟩

theorem test_decode_table_word : decodeTableWord 16 0x8014 = some (.addReg 0 1) := by decide

/-! ### Well-formedness: an ill-formed term for each check -/

theorem test_illformed_sys : (Instr.nopSys 0x0E0).wellFormed = false
    ∧ (Instr.nopSys 0x0EE).wellFormed = false := by decide

theorem test_illformed_alu : (Instr.nopAlu 0 1 0x4).wellFormed = false
    ∧ (Instr.nopAlu 0 1 0xE).wellFormed = false := by decide

theorem test_illformed_key : (Instr.nopKey 0 0x9E).wellFormed = false
    ∧ (Instr.nopKey 0 0xA1).wellFormed = false := by decide

theorem test_illformed_misc : (Instr.nopMisc 0 0x07).wellFormed = false
    ∧ (Instr.nopMisc 0 0x65).wellFormed = false := by decide

/-! ### One step of each instruction (95_test_vectors.md) -/

/-- V-D1. -/
theorem test_cls : stepGives ((start 0x00E0).setFb (Framebuffer.flip Framebuffer.clear 31 63))
    (fun t => !t.pixel 31 63 && decide (t.pc = 0x0202)) = true := by decide

/-- V-C9. -/
theorem test_ret : stepGives { start 0x00EE with sp := 1, stack := State.reset.stack.set 0 0x0204 }
    (fun t => decide (t.pc = 0x0204) && decide (t.sp = 0) && decide (t.stack[0] = 0x0204)) = true := by
  decide

/-- V-C10. -/
theorem test_ret_underflow : step (start 0x00EE) = .fault .stackUnderflow := rfl

/-- V-C1. -/
theorem test_jp : stepGives (start 0x1234) (fun t => decide (t.pc = 0x0234)) = true := by decide

/-- V-C6. -/
theorem test_call : stepGives { start 0x2FFF with sp := 15 }
    (fun t => decide (t.stack[15] = 0x0202) && decide (t.sp = 16) && decide (t.pc = 0x0FFF)) = true := by
  decide

/-- V-C7. -/
theorem test_call_overflow : step { start 0x2300 with sp := 16 } = .fault .stackOverflow := rfl

/-- V-C16. -/
theorem test_se_imm : stepGives (withRegs (start 0x332A) [(3, 0x2A)]) (fun t => decide (t.pc = 0x0204)) = true := by
  decide

/-- V-C19. -/
theorem test_sne_imm : stepGives (withRegs (start 0x432A) [(3, 0x2A)]) (fun t => decide (t.pc = 0x0202)) = true := by
  decide

/-- V-C22. -/
theorem test_se_reg : stepGives (withRegs (start 0x5AB7) [(0xA, 9), (0xB, 9)])
    (fun t => decide (t.pc = 0x0204)) = true := by decide

/-- V-C26. -/
theorem test_sne_reg : stepGives (withRegs (start 0x9AB1) [(0xA, 1)]) (fun t => decide (t.pc = 0x0204)) = true := by
  decide

/-- V-A1. -/
theorem test_ld_imm : stepGives (start 0x6005) (fun t => decide (t.reg 0 = 5)) = true := by decide

/-- V-A3. -/
theorem test_add_imm : stepGives (withRegs (start 0x7205) [(2, 0xFE)])
    (fun t => decide (t.reg 2 = 0x03) && decide (t.reg VF = 0)) = true := by decide

/-- V-A43. -/
theorem test_ld_reg : stepGives (withRegs (start 0x81F0) [(0xF, 9)]) (fun t => decide (t.reg 1 = 9)) = true := by
  decide

/-- V-A44. -/
theorem test_or : stepGives (withRegs (start 0x8011) [(0, 0xF0), (1, 0x0F), (0xF, 1)])
    (fun t => decide (t.reg 0 = 0xFF) && decide (t.reg VF = 1)) = true := by decide

/-- V-A46. -/
theorem test_and : stepGives (withRegs (start 0x8012) [(0, 0xF3), (1, 0x3C)])
    (fun t => decide (t.reg 0 = 0x30)) = true := by decide

/-- V-A48. -/
theorem test_xor : stepGives (withRegs (start 0x8013) [(0, 0xF3), (1, 0x3C)])
    (fun t => decide (t.reg 0 = 0xCF)) = true := by decide

/-- V-A5, the source's own vector. -/
theorem test_add_wraps : stepGives (withRegs (start 0x8014) [(0, 250), (1, 10)])
    (fun t => decide (t.reg 0 = 4) && decide (t.reg VF = 1)) = true := by decide

/-- V-A11: the result, not the carry, remains in `VF`. -/
theorem test_add_into_flag : stepGives (withRegs (start 0x8F14) [(0xF, 0xF0), (1, 0x20)])
    (fun t => decide (t.reg VF = 0x10)) = true := by decide

/-- V-A16. -/
theorem test_sub_borrows : stepGives (withRegs (start 0x8015) [(0, 5), (1, 7)])
    (fun t => decide (t.reg 0 = 0xFE) && decide (t.reg VF = 0)) = true := by decide

/-- V-A22: the old `VF` is the operand. -/
theorem test_sub_flag_operand : stepGives (withRegs (start 0x81F5) [(1, 1), (0xF, 2)])
    (fun t => decide (t.reg 1 = 0xFF) && decide (t.reg VF = 0)) = true := by decide

/-- V-A28: `V[Y]` is ignored. -/
theorem test_shr : stepGives (withRegs (start 0x8276) [(2, 5), (7, 0xAA)])
    (fun t => decide (t.reg 2 = 2) && decide (t.reg VF = 1) && decide (t.reg 7 = 0xAA)) = true := by decide

/-- V-A25: equal operands do not borrow. -/
theorem test_subn_equal : stepGives (withRegs (start 0x8017) [(0, 5), (1, 5)])
    (fun t => decide (t.reg 0 = 0) && decide (t.reg VF = 1)) = true := by decide

/-- V-A23. -/
theorem test_subn : stepGives (withRegs (start 0x8017) [(0, 5), (1, 7)])
    (fun t => decide (t.reg 0 = 2) && decide (t.reg VF = 1)) = true := by decide

/-- V-A35. -/
theorem test_shl : stepGives (withRegs (start 0x820E) [(2, 0x81)])
    (fun t => decide (t.reg 2 = 2) && decide (t.reg VF = 1)) = true := by decide

/-- V-M2. -/
theorem test_ld_i : stepGives ((start 0xA000).setIndex 0x1234) (fun t => decide (t.index = 0)) = true := by decide

/-- V-C13. -/
theorem test_jp_v0 : stepGives (withRegs (start 0xBFFF) [(0, 2)]) (fun t => decide (t.pc = 0x1001)) = true := by
  decide

/-- V-A50. -/
theorem test_rnd : stepGives (present 0 0xB7 (start 0xC30F)) (fun t => decide (t.reg 3 = 0x07)) = true := by decide

/-- V-D6: both axes wrap, pixel by pixel. -/
theorem test_draw_wraps :
    stepGives ((withRegs (start 0xD011) [(0, 255), (1, 255)]).setIndex 0x300 |>.memWrite 0x300 0xC0)
    (fun t => t.pixel 31 63 && t.pixel 31 0 && !t.pixel 31 1 && decide (t.reg VF = 0)) = true := by decide

/-- V-D10: one collision is enough. -/
theorem test_draw_collides :
    stepGives (((start 0xD011).setFb (Framebuffer.flip Framebuffer.clear 0 0)).setIndex 0x300
      |>.memWrite 0x300 0xC0)
    (fun t => !t.pixel 0 0 && t.pixel 0 1 && decide (t.reg VF = 1)) = true := by decide

/-- V-K2: the key number is masked. -/
theorem test_skp : stepGives (present 0x0400 0 (withRegs (start 0xE09E) [(0, 0x1A)]))
    (fun t => decide (t.pc = 0x0204)) = true := by decide

/-- V-K5b. -/
theorem test_sknp : stepGives (present 0x0020 0 (withRegs (start 0xE0A1) [(0, 0xF5)]))
    (fun t => decide (t.pc = 0x0202)) = true := by decide

/-- V-T1: read before the tick. -/
theorem test_ld_vx_dt : stepGives ((start 0xF207).setDt 0x10)
    (fun t => decide (t.reg 2 = 0x10) && decide (t.dt = 0x0F)) = true := by decide

/-- V-K11: the lowest of 1 to 15, and the timers tick. -/
theorem test_key_wait_lowest : stepGives (present 0xFFFF 0 ((start 0xF30A).setDt 2))
    (fun t => decide (t.reg 3 = 1) && decide (t.pc = 0x0202) && decide (t.dt = 1)) = true := by decide

/-- V-K7: key 0 does not end the wait. -/
theorem test_key_wait_key_zero : stepGives (present 0x0001 0 (start 0xF30A))
    (fun t => decide (t.pc = 0x0200) && decide (t.outcome = some .transferred)) = true := by decide

/-- V-T5: set, then tick. -/
theorem test_ld_dt_vx : stepGives (withRegs (start 0xF215) [(2, 5)]) (fun t => decide (t.dt = 4)) = true := by
  decide

/-- V-T10. -/
theorem test_ld_st_vx : stepGives (withRegs (start 0xF018) [(0, 1)])
    (fun t => decide (t.st = 0) && !t.soundActive) = true := by decide

/-- V-M5: a 16-bit sum, no flag. -/
theorem test_add_i : stepGives ((withRegs (start 0xF01E) [(0, 1)]).setIndex 0x0FFF)
    (fun t => decide (t.index = 0x1000) && decide (t.reg VF = 0)) = true := by decide

/-- V-M8: masked. -/
theorem test_ld_f : stepGives (withRegs (start 0xF029) [(0, 0x1A)]) (fun t => decide (t.index = 50)) = true := by
  decide

/-- V-M10: wraps at 4096 and overwrites the font. -/
theorem test_ld_b : stepGives ((withRegs (start 0xF033) [(0, 255)]).setIndex 0x0FFF)
    (fun t => decide (t.memRead 0xFFF = 2) && decide (t.memRead 0 = 5) && decide (t.memRead 1 = 5)
      && decide (t.memRead 2 = 0x90)) = true := by decide

/-- V-M17. -/
theorem test_st_regs :
    stepGives ((withRegs (start 0xF355) [(0, 1), (1, 2), (2, 3), (3, 4)]).setIndex 0x0FFE)
    (fun t => decide (t.memRead 0xFFE = 1) && decide (t.memRead 0xFFF = 2) && decide (t.memRead 0 = 3)
      && decide (t.memRead 1 = 4) && decide (t.index = 0x0FFE)) = true := by decide

/-- V-M22. -/
theorem test_ld_regs : stepGives (((start 0xF265).setIndex 0x0FFF).memWrite 0xFFF 0x11)
    (fun t => decide (t.reg 0 = 0x11) && decide (t.reg 1 = 0xF0) && decide (t.reg 2 = 0x90)
      && decide (t.reg 3 = 0)) = true := by decide

/-- V-C33, one unrecognized word of each family. -/
theorem test_nops : (stepGives (start 0x00E1) (fun t => decide (t.pc = 0x0202))
    && stepGives (start 0x8ABF) (fun t => decide (t.pc = 0x0202))
    && stepGives (start 0xE09F) (fun t => decide (t.pc = 0x0202))
    && stepGives (start 0xF075) (fun t => decide (t.pc = 0x0202))) = true := by decide

/-- V-C29: the second byte of a word at 4095 comes from address 0. -/
theorem test_fetch_wraps :
    stepGives (({ State.reset with pc := 0x0FFF }.memWrite 0xFFF 0x6A).memWrite 0 0x42)
    (fun t => decide (t.reg 0xA = 0x42) && decide (t.pc = 0x1001)) = true := by decide

/-- V-L4. -/
theorem test_load_program : (match loadProgram [0x60, 0x05] State.reset with
    | .next t => decide (t.memRead 0x200 = 0x60) && decide (t.memRead 0x201 = 0x05) && decide (t.pc = 0x200)
    | _ => false) = true := by decide

/-! ### Witnesses: a state and operands that meet the hypotheses of each statement -/

theorem witness_EveryStepKeepsInv : ∃ t, Inv State.reset ∧ step State.reset = .next t :=
  ⟨_, by decide, rfl⟩

theorem witness_StepRunsTheDecodedInstruction_next : ∃ t, (start 0x6005).initialized = true
    ∧ (Instr.ldImm 0 5).wellFormed = true
    ∧ decodeBytes [(start 0x6005).memRead 0x200, (start 0x6005).memRead 0x201] = .ok (.ldImm 0 5, [])
    ∧ exec (.ldImm 0 5) (start 0x6005) = .next t := ⟨_, rfl, rfl, rfl, rfl⟩

theorem witness_StepRunsTheDecodedInstruction_fault : (start 0x00EE).initialized = true
    ∧ decodeBytes [(start 0x00EE).memRead 0x200, (start 0x00EE).memRead 0x201] = .ok (.ret, [])
    ∧ exec .ret (start 0x00EE) = .fault .stackUnderflow := ⟨rfl, rfl, rfl⟩

theorem witness_StepRunsTheDecodedInstruction_refused :
    decodeBytes [(start 0x2300).memRead 0x200, (start 0x2300).memRead 0x201] = .ok (.call 0x300, [])
    ∧ exec (.call 0x300) { start 0x2300 with sp := 17 } = .refused .stackCountOutOfRange := ⟨rfl, rfl⟩

theorem witness_EndOfCycleAdvancesPcAndTicks :
    (State.reset.setOutcome .normal).outcome = some .normal
    ∧ (State.reset.setOutcome .skip).outcome = some .skip
    ∧ (State.reset.setOutcome .transferred).outcome = some .transferred := ⟨rfl, rfl, rfl⟩

theorem witness_NothingRunsBeforeInitialize :
    { State.reset with initialized := false }.initialized = false := rfl

theorem witness_OnlyStackFaultsStopACycle_overflow :
    { start 0x2300 with sp := 16 }.initialized = true ∧ Inv { start 0x2300 with sp := 16 }
    ∧ overflows { start 0x2300 with sp := 16 } := by decide

theorem witness_OnlyStackFaultsStopACycle_underflow :
    (start 0x00EE).initialized = true ∧ Inv (start 0x00EE) ∧ underflows (start 0x00EE) := by decide

theorem witness_OnlyStackFaultsStopACycle_neither :
    { start 0x2300 with sp := 15 }.initialized = true ∧ Inv { start 0x2300 with sp := 15 }
    ∧ ¬ overflows { start 0x2300 with sp := 15 } ∧ ¬ underflows { start 0x2300 with sp := 15 } := by decide

theorem witness_TimersTickOnEveryCycle : ∃ a b c d, step (start 0xF215) = .next a
    ∧ (start 0xF215).current = .ldDtVx 2 ∧ step (start 0xF218) = .next b
    ∧ (start 0xF218).current = .ldStVx 2 ∧ step (start 0xF207) = .next c
    ∧ (start 0xF207).current = .ldVxDt 2 ∧ step (start 0x1200) = .next d
    ∧ (start 0x1200).current.opClass ≠ .ldDtVx ∧ (start 0x1200).current.opClass ≠ .ldStVx :=
  ⟨_, _, _, _, rfl, rfl, rfl, rfl, rfl, rfl, rfl, by decide, by decide⟩

theorem witness_OutcomeOfEveryClass : ∃ a b c d, exec (.jp 0) State.reset = .next a
    ∧ exec (.seImm 0 0) State.reset = .next b ∧ exec (.ldVxK 0) State.reset = .next c
    ∧ exec .cls State.reset = .next d := ⟨_, _, _, _, rfl, rfl, rfl, rfl⟩

theorem witness_DecodeInvertsEncode : (Instr.nopAlu 0xF 0xF 0xF).wellFormed = true
    ∧ (Instr.nopSys 0x0E1).wellFormed = true ∧ (Instr.nopKey 0 0x9F).wellFormed = true
    ∧ (Instr.nopMisc 0xF 0xFF).wellFormed = true ∧ (Instr.draw 0xF 0xF 0xF).wellFormed = true := by decide

theorem witness_IgnoredBitsChangeNothing : (0x5AB7 : Word).toNat / 4096 = 0x5
    ∧ (0x9ABF : Word).toNat / 4096 = 0x9
    ∧ ((0x8AB6 : Word).toNat / 4096 = 0x8 ∧ (0x8AB6 : Word).toNat % 16 = 0x6)
    ∧ ((0x8ABE : Word).toNat / 4096 = 0x8 ∧ (0x8ABE : Word).toNat % 16 = 0xE) := by decide

theorem witness_CallPushesTheReturnAddress : { State.reset with sp := 15 }.sp.toNat < 16
    ∧ { State.reset with sp := 16 }.sp.toNat = 16 := by decide

theorem witness_ReturnPopsIntoPc : 0 < { State.reset with sp := 1 }.sp.toNat
    ∧ { State.reset with sp := 16 }.sp.toNat ≤ 16 ∧ State.reset.sp.toNat = 0 := by decide

theorem witness_StackCountAboveSixteenIsRefused : 16 < { State.reset with sp := 17 }.sp.toNat
    ∧ 16 < { State.reset with sp := 31 }.sp.toNat := by decide

theorem witness_ReturnComesBackAfterTheCall : ∃ t, exec (.call 0x300) { State.reset with sp := 15 } = .next t
    ∧ t.sp = t.sp ∧ t.stack = t.stack := ⟨_, rfl, rfl, rfl⟩

theorem witness_CompareAndSkip : State.reset.reg 0 = 0#8 ∧ State.reset.reg 0 ≠ 1#8
    ∧ State.reset.reg 0 = State.reset.reg 1 ∧ (State.reset.setReg 1 7).reg 0 ≠ (State.reset.setReg 1 7).reg 1 := by
  decide

theorem witness_UnrecognizedWordIsANoOp : (Instr.nopSys 0).opClass = .nopUnrecognized
    ∧ (Instr.nopAlu 0 0 8).opClass = .nopUnrecognized ∧ (Instr.nopKey 0 0).opClass = .nopUnrecognized
    ∧ (Instr.nopMisc 0 0).opClass = .nopUnrecognized := ⟨rfl, rfl, rfl, rfl⟩

/-- The clause on `VF` of the flag-defining instructions has operands with X other than F, and X = F is
the boundary it leaves to the result. -/
theorem witness_writesFlagged : (0xE : RegIdx) ≠ VF ∧ (0xF : RegIdx) = VF := by decide

theorem witness_FlagIsZeroOrOne : ∃ a b, exec (.addReg 0xE 0xF) State.reset = .next a
    ∧ (0xE : RegIdx) ≠ VF ∧ exec (.draw 0xF 0xF 0) State.reset = .next b := ⟨_, _, rfl, by decide, rfl⟩

theorem witness_DecimalDigitsAreStored : Inv (State.reset.setIndex 0x0FFF) := by decide

theorem witness_RegisterBlockIsStored : Inv ((State.reset.setIndex 0x0FFE).memWrite 0x0FFE 1) := by decide

theorem witness_StoredBlockLoadsBack : ∃ t, Inv State.reset ∧ exec (.stRegs 0xF) State.reset = .next t
    ∧ sameMemory t t ∧ t.index = State.reset.index := ⟨_, by decide, rfl, fun _ => rfl, rfl⟩

/-- `FX55` with `X = 0`: its one byte falls on the second byte of the next word, not on the first. -/
theorem witness_StoreIsSeenByTheNextFetch : ∃ u, Inv ((start 0xF055).setIndex 0x203)
    ∧ step ((start 0xF055).setIndex 0x203) = .next u
    ∧ ((start 0xF055).setIndex 0x203).current = .stRegs 0
    ∧ (0x203 + 0) % 4096 = (0x200 + 2 + 1) % 4096 ∧ (0x203 + 0) % 4096 ≠ (0x200 + 2 + 0) % 4096 :=
  ⟨_, by decide, rfl, rfl, rfl, by decide⟩

/-- `FX33` from two bytes before the next word: its last digit falls on the word's first byte. -/
theorem witness_StoreIsSeenByTheNextFetch_digits : ∃ u, Inv ((start 0xF033).setIndex 0x1200)
    ∧ step ((start 0xF033).setIndex 0x1200) = .next u
    ∧ ((start 0xF033).setIndex 0x1200).current = .ldB 0
    ∧ (0x1200 + 2) % 4096 = (0x200 + 2 + 0) % 4096 := ⟨_, by decide, rfl, rfl, rfl⟩

/-- The word a `FX55` from one byte before it leaves is fetched next: the second and third register. -/
theorem test_store_seen_from_earlier_start :
    stepGives ((withRegs (start 0xF255) [(0, 0xAA), (1, 0x61), (2, 0x05)]).setIndex 0x201)
    (fun t => decide (t.current = .ldImm 1 5)) = true := by decide

/-- Addresses that meet modulo 4096 and addresses that do not. -/
theorem witness_MemoryAddressesAreMasked : Inv State.reset ∧ 0x1FFF % 4096 = 0xFFF % 4096
    ∧ 0x1000 % 4096 ≠ 0xFFF % 4096 := by decide

/-- Glyph "0" at the top left corner: its bit 7 covers pixel (0, 0), and nothing covers (0, 4). -/
theorem witness_DrawFlipsThePixelsUnderTheSprite : spriteCovers State.reset 0 1 5 0 0
    ∧ ¬ spriteCovers State.reset 0 1 5 0 63 := by
  refine ⟨⟨0, 0, by decide, by decide, by decide, by decide, by decide⟩, ?_⟩
  rintro ⟨row, col, -, hcol, -, -, hpx⟩
  rw [show (State.reset.reg 0).toNat = 0 by decide] at hpx
  omega

/-- A pixel under the sprite that is already 1. -/
theorem witness_DrawFlipsThePixelsUnderTheSprite_collision :
    spriteCovers (State.reset.setFb (Framebuffer.flip Framebuffer.clear 0 0)) 0 1 5 0 0
    ∧ (State.reset.setFb (Framebuffer.flip Framebuffer.clear 0 0)).pixel 0 0 = true :=
  ⟨⟨0, 0, by decide, by decide, by decide, by decide, by decide⟩, by decide⟩

theorem witness_SecondDrawRestoresTheScreen : ∃ t, exec (.draw 0 1 5) State.reset = .next t
    ∧ sameScreen t t ∧ sameMemory State.reset t ∧ t.index = State.reset.index
    ∧ t.reg 0 = State.reset.reg 0 ∧ t.reg 1 = State.reset.reg 1
    ∧ State.reset.pixel 0 0 = false ∧ t.pixel 0 0 = true :=
  ⟨_, rfl, fun _ _ => rfl, fun _ => rfl, rfl, by decide, by decide, by decide, by decide⟩

theorem witness_KeySkips : (present 0x8000 0 (State.reset.setReg 0 0x1F)).key 15 = true
    ∧ (present 0x8000 0 State.reset).key 0 = false := by decide

/-- Boundary keys 1 and 15 of the completing clause. -/
theorem witness_KeyWaitTakesTheLeastPressedKey : (present 0x0002 0 State.reset).key 1 = true
    ∧ (present 0x8000 0 State.reset).key 15 = true
    ∧ (∀ j, 1 ≤ j → j < 15 → (present 0x8000 0 State.reset).key j = false)
    ∧ (∀ k, 1 ≤ k → k ≤ 15 → (present 0x0001 0 State.reset).key k = false) := by
  refine ⟨by decide, by decide, fun j h1 h2 => ?_, fun k h1 h2 => ?_⟩ <;> simp only [State.key]
  · interval_cases j <;> decide
  · interval_cases k <;> decide

theorem witness_WaitingCycleChangesOnlyTheTimers : (present 0x0001 0 (start 0xF30A)).initialized = true
    ∧ waitsForKey (present 0x0001 0 (start 0xF30A)) := by
  refine ⟨rfl, by decide, fun k h1 h2 => ?_⟩
  interval_cases k <;> decide

theorem witness_RegistersChangeOnlyByTheirWriters : ∃ t, exec (.ldRegs 0xE) State.reset = .next t
    ∧ ¬ mayWriteReg VF (.ldRegs 0xE) :=
  ⟨_, rfl, by rw [mayWriteReg]; decide⟩

theorem witness_StateChangesOnlyByItsWriters : ∃ t, exec (.draw 0 1 5) State.reset = .next t
    ∧ (Instr.draw 0 1 5).opClass ∉ [OpClass.ldB, .stRegs] := ⟨_, rfl, by decide⟩

theorem witness_InputsReachOnlyTheirReaders : ∃ t, exec (.ldImm 0 5) (present 1 2 State.reset) = .next t
    ∧ (Instr.ldImm 0 5).opClass ≠ .rnd ∧ (Instr.ldImm 0 5).opClass ∉ [OpClass.skp, .sknp, .ldVxK] :=
  ⟨_, rfl, by decide, by decide⟩

/-- Two states that differ in bit 12 of `I` and bit 15 of PC. -/
theorem witness_HighAddressBitsAreNeverObserved :
    agreeBelow4096 ({ start 0xF055 with index := 0x0300 })
      ({ start 0xF055 with index := 0x1300, pc := 0x8200 }) :=
  ⟨rfl, rfl, rfl, rfl, fun _ _ => rfl, rfl, rfl, rfl, rfl, rfl, rfl, rfl, rfl⟩

/-- Images of exactly 3584 bytes and of one byte more. -/
theorem witness_LoadProgramIsAllOrNothing : State.reset.initialized = true ∧ Inv State.reset
    ∧ 3584 < (List.replicate 3585 (0xAB : Byte)).length
    ∧ (List.replicate 3584 (0xAB : Byte)).length ≤ 3584 := by
  rw [List.length_replicate, List.length_replicate]
  decide

/-- A run of no steps, one that a stack fault stops short, and one that is refused. -/
theorem witness_RunsOfStepsCompose : runSteps 0 (start 0x00EE) = .next (start 0x00EE)
    ∧ runSteps 1 (start 0x00EE) = .fault .stackUnderflow
    ∧ runSteps 1 { State.reset with initialized := false } = .refused .uninitialized := ⟨rfl, rfl, rfl⟩

/-- A no-op at 512 and a jump to itself at 514: the run ends after one step, and not before. -/
theorem witness_RunEndsAtTheFirstJumpToSelf : ∃ t,
    runToEnd 1 ((State.reset.memWrite 0x202 0x12).memWrite 0x203 0x02) = some t ∧ endsRun t
    ∧ ¬ endsRun ((State.reset.memWrite 0x202 0x12).memWrite 0x203 0x02) :=
  ⟨_, rfl, by decide, by decide⟩

/-- Neither a key wait nor an empty stack's `RET` ends a run. -/
theorem test_run_not_ended : runToEnd 3 (present 0 0 (present 0 0 (present 0 0 (start 0xF30A)))) = none
    ∧ runToEnd 3 (start 0x00EE) = none := by decide

theorem witness_StepsAfterTheEndRunOnlyTheTimers : endsRun (start 0x1200) := by decide

theorem witness_InitializeErasesTheProgram : ∃ t, loadProgram [0x60, 0x05] State.reset = .next t :=
  ⟨_, rfl⟩

theorem witness_ResetLeavesTheSpecState : ({ State.reset with initialized := false }).initialized = false :=
  rfl

theorem witness_JumpToSelfIsAFixedPoint : (start 0x1200).initialized = true ∧ atJumpToSelf (start 0x1200) := by
  decide

end Sys2Proof.Tests
end

section
/-! The memory access rules at the level of the state (spec 20_memory.md R31 to R33). -/

namespace Sys2Proof.Machine

/-- R33: the first byte is the high one, and no bit of either byte is lost. -/
theorem wordOfBytes_toNat (hi lo : Byte) :
    (wordOfBytes hi lo).toNat = hi.toNat * 256 + lo.toNat := by
  have hhi := hi.isLt
  have hlo := lo.isLt
  rw [wordOfBytes, BitVec.toNat_ofNat]
  omega

/-- R31: an address and its remainder modulo 4096 name the same byte. -/
theorem State.memRead_mod (s : State) (a : Nat) : s.memRead (a % 4096) = s.memRead a :=
  Memory.read_congr s.mem (Nat.mod_mod a 4096)

/-- R32, for a memory in canonical form (log entry 6). -/
theorem State.memRead_memWrite (s : State) (a b : Nat) (val : Byte) (hs : Inv s) :
    (s.memWrite a val).memRead b = if b % 4096 = a % 4096 then val else s.memRead b :=
  Memory.read_write s.mem a b val hs.1

theorem Inv.memWrite {s : State} (hs : Inv s) (a : Nat) (val : Byte) : Inv (s.memWrite a val) :=
  ⟨Memory.write_wf s.mem a val hs.1, hs.2⟩

/-- R33, with each of the two addresses masked by itself. -/
theorem State.fetchWord_toNat (s : State) :
    s.fetchWord.toNat = (s.memRead (s.pc.toNat % 4096)).toNat * 256
      + (s.memRead ((s.pc.toNat + 1) % 4096)).toNat := by
  rw [State.memRead_mod, State.memRead_mod]
  exact wordOfBytes_toNat _ _

/-- Settles O34: a read and a fetch depend on addresses modulo 4096 only, and a write to a canonical
memory is seen at every name of its address and nowhere else. -/
theorem memoryAddressesAreMasked : Obligations.MemoryAddressesAreMasked := by
  intro a b val s hs
  exact ⟨(s.memRead_mod a).symm, s.memRead_memWrite a b val hs, hs.memWrite a val,
    s.fetchWord_toNat⟩

end Sys2Proof.Machine
end

section
/-! The operand fields of a word and of the two bytes in memory that make it (spec 30_encoding.md R46). -/

namespace Sys2Proof

/-- R46: NNN is X followed by KK. -/
theorem fieldNNN_eq_fieldX_fieldKK (w : Word) :
    (fieldNNN w).toNat = (fieldX w).toNat * 256 + (fieldKK w).toNat := by
  rw [fieldNNN_toNat, fieldX_toNat, fieldKK_toNat]
  omega

/-- R46: KK is Y followed by N. -/
theorem fieldKK_eq_fieldY_fieldN (w : Word) :
    (fieldKK w).toNat = (fieldY w).toNat * 16 + (fieldN w).toNat := by
  rw [fieldKK_toNat, fieldY_toNat, fieldN_toNat]
  omega

/-- R46, derived from R33: the byte at the lower address holds the family and X. -/
theorem hi_eq_fieldFamily_fieldX (hi lo : Byte) :
    hi.toNat = (fieldFamily (wordOfBytes hi lo)).toNat * 16
      + (fieldX (wordOfBytes hi lo)).toNat := by
  have hhi := hi.isLt
  have hlo := lo.isLt
  rw [fieldFamily_toNat, fieldX_toNat, Machine.wordOfBytes_toNat]
  omega

/-- R46, derived from R33: the byte at the higher address is KK. -/
theorem fieldKK_wordOfBytes (hi lo : Byte) : fieldKK (wordOfBytes hi lo) = lo := by
  have hlo := lo.isLt
  exact fieldKK_ofNat _ lo (by omega)

/-- Settles O14: the descriptor's fields are the field functions of the word, each a bit slice, and
the two bytes of a fetched word split it between X and KK. -/
theorem fieldsAreTheBitSlicesOfTheWord : Obligations.FieldsAreTheBitSlicesOfTheWord := by
  constructor
  · intro w
    exact ⟨fieldFamily_toNat w, fieldX_toNat w, fieldY_toNat w, fieldN_toNat w, fieldKK_toNat w,
      fieldNNN_toNat w, fieldNNN_eq_fieldX_fieldKK w, fieldKK_eq_fieldY_fieldN w, rfl⟩
  · intro hi lo
    exact ⟨hi_eq_fieldFamily_fieldX hi lo, (fieldKK_wordOfBytes hi lo).symm⟩

end Sys2Proof
end

section
/-! The fields of the words that carry an address, an immediate or two registers, and the words of the
control-transfer instructions (spec 30_encoding.md R46, R51, R62). -/

open Sys2Proof.Claims

namespace Sys2Proof

/-- The fields of a word of the shape `family, NNN` (R46). -/
theorem fields_addrWord (f : Nat) (nnn : Addr) (hf : f < 16) :
    fieldFamily (BitVec.ofNat 16 (f * 4096 + nnn.toNat)) = BitVec.ofNat 4 f
      ∧ fieldNNN (BitVec.ofNat 16 (f * 4096 + nnn.toNat)) = nnn := by
  have hn := nnn.isLt
  exact ⟨fieldFamily_ofNat _ f (by omega) (by omega), fieldNNN_ofNat _ nnn (by omega)⟩

/-- The fields of a word of the shape `family, X, KK` (R46). -/
theorem fields_immWord (f : Nat) (x : RegIdx) (kk : Byte) (hf : f < 16) :
    fieldFamily (BitVec.ofNat 16 (f * 4096 + x.toNat * 256 + kk.toNat)) = BitVec.ofNat 4 f
      ∧ fieldX (BitVec.ofNat 16 (f * 4096 + x.toNat * 256 + kk.toNat)) = x
      ∧ fieldKK (BitVec.ofNat 16 (f * 4096 + x.toNat * 256 + kk.toNat)) = kk := by
  have hx := x.isLt
  have hk := kk.isLt
  exact ⟨fieldFamily_ofNat _ f (by omega) (by omega), fieldX_ofNat _ x (by omega),
    fieldKK_ofNat _ kk (by omega)⟩

/-- The fields of a word of the shape `family, X, Y, N` (R46). -/
theorem fields_regWord (f : Nat) (x y : RegIdx) (n : Nibble) (hf : f < 16) :
    fieldFamily (BitVec.ofNat 16 (f * 4096 + x.toNat * 256 + y.toNat * 16 + n.toNat))
        = BitVec.ofNat 4 f
      ∧ fieldX (BitVec.ofNat 16 (f * 4096 + x.toNat * 256 + y.toNat * 16 + n.toNat)) = x
      ∧ fieldY (BitVec.ofNat 16 (f * 4096 + x.toNat * 256 + y.toNat * 16 + n.toNat)) = y
      ∧ fieldN (BitVec.ofNat 16 (f * 4096 + x.toNat * 256 + y.toNat * 16 + n.toNat)) = n := by
  have hx := x.isLt
  have hy := y.isLt
  have hn := n.isLt
  exact ⟨fieldFamily_ofNat _ f (by omega) (by omega), fieldX_ofNat _ x (by omega),
    fieldY_ofNat _ y (by omega), fieldN_ofNat _ n (by omega)⟩

/-! ### The families with one operation (R51) -/

theorem decodeWord_of_family_1 {w : Word} (h : fieldFamily w = 0x1#4) :
    decodeWord w = .jp (fieldNNN w) := by
  simp [decodeWord, describe, Descriptor.toInstr, classify, h]

theorem decodeWord_of_family_2 {w : Word} (h : fieldFamily w = 0x2#4) :
    decodeWord w = .call (fieldNNN w) := by
  simp [decodeWord, describe, Descriptor.toInstr, classify, h]

theorem decodeWord_of_family_3 {w : Word} (h : fieldFamily w = 0x3#4) :
    decodeWord w = .seImm (fieldX w) (fieldKK w) := by
  simp [decodeWord, describe, Descriptor.toInstr, classify, h]

theorem decodeWord_of_family_4 {w : Word} (h : fieldFamily w = 0x4#4) :
    decodeWord w = .sneImm (fieldX w) (fieldKK w) := by
  simp [decodeWord, describe, Descriptor.toInstr, classify, h]

theorem decodeWord_of_family_5 {w : Word} (h : fieldFamily w = 0x5#4) :
    decodeWord w = .seReg (fieldX w) (fieldY w) (fieldN w) := by
  simp [decodeWord, describe, Descriptor.toInstr, classify, h]

theorem decodeWord_of_family_9 {w : Word} (h : fieldFamily w = 0x9#4) :
    decodeWord w = .sneReg (fieldX w) (fieldY w) (fieldN w) := by
  simp [decodeWord, describe, Descriptor.toInstr, classify, h]

theorem decodeWord_of_family_B {w : Word} (h : fieldFamily w = 0xB#4) :
    decodeWord w = .jpV0 (fieldNNN w) := by
  simp [decodeWord, describe, Descriptor.toInstr, classify, h]

/-! ### The words of the instructions (R62) -/

theorem encodedAs_jp (nnn : Addr) : encodedAs (0x1000 + nnn.toNat) (.jp nnn) := by
  obtain ⟨hfam, hnnn⟩ := fields_addrWord 0x1 nnn (by decide)
  exact (decodeWord_of_family_1 hfam).trans (by rw [hnnn])

theorem encodedAs_call (nnn : Addr) : encodedAs (0x2000 + nnn.toNat) (.call nnn) := by
  obtain ⟨hfam, hnnn⟩ := fields_addrWord 0x2 nnn (by decide)
  exact (decodeWord_of_family_2 hfam).trans (by rw [hnnn])

theorem encodedAs_seImm (x : RegIdx) (kk : Byte) :
    encodedAs (0x3000 + x.toNat * 256 + kk.toNat) (.seImm x kk) := by
  obtain ⟨hfam, hx, hkk⟩ := fields_immWord 0x3 x kk (by decide)
  exact (decodeWord_of_family_3 hfam).trans (by rw [hx, hkk])

theorem encodedAs_sneImm (x : RegIdx) (kk : Byte) :
    encodedAs (0x4000 + x.toNat * 256 + kk.toNat) (.sneImm x kk) := by
  obtain ⟨hfam, hx, hkk⟩ := fields_immWord 0x4 x kk (by decide)
  exact (decodeWord_of_family_4 hfam).trans (by rw [hx, hkk])

theorem encodedAs_seReg (x y : RegIdx) (n : Nibble) :
    encodedAs (0x5000 + x.toNat * 256 + y.toNat * 16 + n.toNat) (.seReg x y n) := by
  obtain ⟨hfam, hx, hy, hn⟩ := fields_regWord 0x5 x y n (by decide)
  exact (decodeWord_of_family_5 hfam).trans (by rw [hx, hy, hn])

theorem encodedAs_sneReg (x y : RegIdx) (n : Nibble) :
    encodedAs (0x9000 + x.toNat * 256 + y.toNat * 16 + n.toNat) (.sneReg x y n) := by
  obtain ⟨hfam, hx, hy, hn⟩ := fields_regWord 0x9 x y n (by decide)
  exact (decodeWord_of_family_9 hfam).trans (by rw [hx, hy, hn])

theorem encodedAs_jpV0 (nnn : Addr) : encodedAs (0xB000 + nnn.toNat) (.jpV0 nnn) := by
  obtain ⟨hfam, hnnn⟩ := fields_addrWord 0xB nnn (by decide)
  exact (decodeWord_of_family_B hfam).trans (by rw [hnnn])

end Sys2Proof
end

section
/-! Control transfer (spec 40_cycle_and_control_transfer.md R72 to R83): what an outcome makes of PC,
what a jump, a push and a pop leave unchanged, and the instructions built from them. -/

open Sys2Proof.Claims

namespace Sys2Proof.Machine

/-! ### The outcomes (R72) -/

theorem nothingChanges_setOutcome (s : State) (o : Transfer) : nothingChanges s (s.setOutcome o) :=
  ⟨fun _ => rfl, rfl, rfl, ⟨rfl, fun _ _ => rfl⟩, ⟨rfl, rfl⟩, fun _ => rfl, fun _ _ => rfl,
    rfl, rfl, rfl⟩

theorem endsNormal_setOutcome (s : State) : endsNormal s (s.setOutcome .normal) := ⟨rfl, rfl, rfl⟩

theorem endsSkip_setOutcome (s : State) : endsSkip s (s.setOutcome .skip) := ⟨rfl, rfl, rfl⟩

/-- A transferred outcome leaves PC at the target the handler set. -/
theorem endsAt_setPc (s : State) (target : Word) :
    endsAt target.toNat ((s.setPc target).setOutcome .transferred) :=
  ⟨rfl, rfl, BitVec.add_zero target⟩

/-- A conditional skip skips exactly when its condition holds. -/
theorem skipIf_skipsWhen (c : Prop) [Decidable c] (s : State) :
    ∃ t, skipIf (decide c) s = .next t ∧ skipsWhen c s t := by
  by_cases hc : c
  · exact ⟨s.setOutcome .skip, by simp [hc], nothingChanges_setOutcome s _,
      fun _ => endsSkip_setOutcome s, fun hn => absurd hc hn⟩
  · exact ⟨s.setOutcome .normal, by simp [hc], nothingChanges_setOutcome s _,
      fun h => absurd h hc, fun _ => endsNormal_setOutcome s⟩

/-! ### The frames of a jump, a push and a pop -/

theorem onlyControlChanges_refl (s : State) : onlyControlChanges s s :=
  ⟨fun _ => rfl, rfl, ⟨rfl, rfl⟩, fun _ => rfl, fun _ _ => rfl, rfl, rfl, rfl⟩

theorem onlyControlChanges_push (s : State) (ret : Word) (h : s.sp.toNat < 16) :
    onlyControlChanges s (s.push ret h) :=
  onlyControlChanges_refl s

theorem onlyControlChanges_pop (s : State) : onlyControlChanges s s.pop := onlyControlChanges_refl s

/-- A transfer of control adds a change of PC and outcome, and nothing else, to what came before it. -/
theorem onlyControlChanges.setPc_setOutcome {s t : State} (h : onlyControlChanges s t)
    (target : Word) (o : Transfer) : onlyControlChanges s ((t.setPc target).setOutcome o) :=
  h

theorem sameStack_setPc_setOutcome (s : State) (target : Word) (o : Transfer) :
    sameStack s ((s.setPc target).setOutcome o) :=
  ⟨rfl, fun _ _ => rfl⟩

/-! ### The numbers involved -/

theorem addrImm_toNat (nnn : Addr) : (addrImm nnn).toNat = nnn.toNat := by
  have hn := nnn.isLt
  rw [addrImm, BitVec.toNat_setWidth, Nat.mod_eq_of_lt (by omega)]

theorem State.regWide_toNat (s : State) (x : RegIdx) : (s.regWide x).toNat = (s.reg x).toNat := by
  have hr := (s.reg x).isLt
  rw [State.regWide, BitVec.toNat_setWidth, Nat.mod_eq_of_lt (by omega)]

/-- R78: the sum of a 12-bit address and a byte does not overflow 16 bits. -/
theorem addrImm_add_regWide_toNat (nnn : Addr) (s : State) (x : RegIdx) :
    (addrImm nnn + s.regWide x).toNat = nnn.toNat + (s.reg x).toNat := by
  have hn := nnn.isLt
  have hr := (s.reg x).isLt
  rw [BitVec.toNat_add, addrImm_toNat, State.regWide_toNat, Nat.mod_eq_of_lt (by omega)]

/-- R76, conflict C1: the return address is reduced modulo 65536. -/
theorem State.returnAddr_toNat (s : State) : s.returnAddr.toNat = (s.pc.toNat + 2) % 65536 :=
  BitVec.toNat_add s.pc 2#16

theorem State.push_sp_toNat (s : State) (ret : Word) (h : s.sp.toNat < 16) :
    (s.push ret h).sp.toNat = s.sp.toNat + 1 := by
  rw [State.push_sp]
  bv_omega

theorem State.pop_sp_toNat (s : State) (h : 0 < s.sp.toNat) : s.pop.sp.toNat = s.sp.toNat - 1 := by
  rw [State.pop_sp]
  bv_omega

/-- R14: a push leaves every other entry, the dead ones above it included. -/
theorem State.push_stack_of_ne (s : State) (ret : Word) (h : s.sp.toNat < 16) (k : Nat)
    (hk : k < 16) (hne : k ≠ s.sp.toNat) : (s.push ret h).stack[k] = s.stack[k] :=
  Vector.getElem_set_ne h hk hne.symm

/-! ### The handlers -/

theorem exec_jp (nnn : Addr) (s : State) :
    exec (.jp nnn) s = .next ((s.setPc (addrImm nnn)).setOutcome .transferred) := rfl

theorem exec_jpV0 (nnn : Addr) (s : State) :
    exec (.jpV0 nnn) s = .next ((s.setPc (addrImm nnn + s.regWide 0#4)).setOutcome .transferred) := rfl

theorem exec_call (nnn : Addr) (s : State) :
    exec (.call nnn) s = pushThen s s.returnAddr
      (fun t => .next ((t.setPc (addrImm nnn)).setOutcome .transferred)) := rfl

theorem exec_ret (s : State) :
    exec .ret s = popThen s (fun target t => .next ((t.setPc target).setOutcome .transferred)) := rfl

/-- R76 with room on the stack. -/
theorem exec_call_of_lt (nnn : Addr) (s : State) (h : s.sp.toNat < 16) :
    exec (.call nnn) s
      = .next (((s.push s.returnAddr h).setPc (addrImm nnn)).setOutcome .transferred) := by
  rw [exec_call, pushThen_of_lt _ _ h]

/-- R141. -/
theorem exec_call_of_full (nnn : Addr) (s : State) (h : s.sp.toNat = 16) :
    exec (.call nnn) s = .fault .stackOverflow := by
  rw [exec_call, pushThen_of_full _ _ (BitVec.eq_of_toNat_eq h)]

/-- R77 with an entry in use. -/
theorem exec_ret_of_pos (s : State) (h0 : 0 < s.sp.toNat) (h : s.sp.toNat ≤ 16) :
    exec .ret s = .next ((s.pop.setPc s.stack[s.sp.toNat - 1]).setOutcome .transferred) := by
  rw [exec_ret, popThen_of_pos _ h0 h]

/-- R142. -/
theorem exec_ret_of_empty (s : State) (h : s.sp.toNat = 0) :
    exec .ret s = .fault .stackUnderflow := by
  rw [exec_ret, popThen_of_empty _ (BitVec.eq_of_toNat_eq h)]

/-- R83: the four unrecognized forms have one meaning. -/
theorem exec_of_unrecognized {i : Instr} (h : i.opClass = .nopUnrecognized) (s : State) :
    exec i s = .next (s.setOutcome .normal) := by
  cases i with
  | nopSys nnn => rfl
  | nopAlu x y n => rfl
  | nopKey x kk => rfl
  | nopMisc x kk => rfl
  | _ => cases h

/-! ### The obligations -/

/-- Settles O17: a jump is a write of PC with the transferred outcome. -/
theorem jumpSetsPc : Obligations.JumpSetsPc := by
  intro nnn s
  refine ⟨encodedAs_jp nnn, _, exec_jp nnn s, ?_,
    (onlyControlChanges_refl s).setPc_setOutcome _ _, sameStack_setPc_setOutcome s _ _⟩
  exact addrImm_toNat nnn ▸ endsAt_setPc s (addrImm nnn)

/-- Settles O18: the 16-bit sum of target and `V[0]` cannot wrap. -/
theorem jumpWithOffsetAddsV0 : Obligations.JumpWithOffsetAddsV0 := by
  intro nnn s
  refine ⟨encodedAs_jpV0 nnn, _, exec_jpV0 nnn s, ?_,
    (onlyControlChanges_refl s).setPc_setOutcome _ _, sameStack_setPc_setOutcome s _ _⟩
  exact addrImm_add_regWide_toNat nnn s 0 ▸ endsAt_setPc s (addrImm nnn + s.regWide 0)

/-- Settles O19: with room a call is a push and a jump, with a full stack the push faults. -/
theorem callPushesTheReturnAddress : Obligations.CallPushesTheReturnAddress := by
  intro nnn s
  refine ⟨encodedAs_call nnn, fun h => ?_, exec_call_of_full nnn s⟩
  refine ⟨_, exec_call_of_lt nnn s h, ?_, ?_, s.push_stack_of_ne s.returnAddr h,
    s.push_sp_toNat s.returnAddr h,
    (onlyControlChanges_push s s.returnAddr h).setPc_setOutcome _ _⟩
  · exact addrImm_toNat nnn ▸ endsAt_setPc (s.push s.returnAddr h) (addrImm nnn)
  · simp [State.returnAddr_toNat]

/-- Settles O20: with an entry in use a return is a pop and a jump to that entry, with an empty stack
the pop faults. -/
theorem returnPopsIntoPc : Obligations.ReturnPopsIntoPc := by
  intro s
  refine ⟨rfl, fun h0 h => ?_, exec_ret_of_empty s⟩
  exact ⟨_, exec_ret_of_pos s h0 h, endsAt_setPc s.pop _, s.pop_sp_toNat h0, fun _ _ => rfl,
    (onlyControlChanges_pop s).setPc_setOutcome _ _⟩

/-- Settles O23: each of the four is a conditional skip on its own comparison. -/
theorem compareAndSkip : Obligations.CompareAndSkip := by
  intro x y n kk s
  exact ⟨encodedAs_seImm x kk, skipIf_skipsWhen (s.reg x = kk) s,
    encodedAs_sneImm x kk, skipIf_skipsWhen (s.reg x ≠ kk) s,
    encodedAs_seReg x y n, skipIf_skipsWhen (s.reg x = s.reg y) s,
    encodedAs_sneReg x y n, skipIf_skipsWhen (s.reg x ≠ s.reg y) s⟩

/-- Settles O24: an unrecognized word only states the normal outcome, and the cycle's end ticks the
timers. -/
theorem unrecognizedWordIsANoOp : Obligations.UnrecognizedWordIsANoOp := by
  intro i s hi
  exact ⟨_, exec_of_unrecognized hi s, nothingChanges_setOutcome s _, endsNormal_setOutcome s,
    tick_toNat s.dt, tick_toNat s.st⟩

end Sys2Proof.Machine
end

section
/-! The words of the load, arithmetic, logic, shift and random instructions (spec 30_encoding.md R46,
R51, R53, R62). -/

open Sys2Proof.Claims

namespace Sys2Proof

/-- The fields of a word of the shape `family, X, Y` with a fixed low nibble (R46). -/
theorem fields_pairWord (f c : Nat) (x y : RegIdx) (hf : f < 16) (hc : c < 16) :
    fieldFamily (BitVec.ofNat 16 (f * 4096 + c + x.toNat * 256 + y.toNat * 16)) = BitVec.ofNat 4 f
      ∧ fieldX (BitVec.ofNat 16 (f * 4096 + c + x.toNat * 256 + y.toNat * 16)) = x
      ∧ fieldY (BitVec.ofNat 16 (f * 4096 + c + x.toNat * 256 + y.toNat * 16)) = y
      ∧ fieldN (BitVec.ofNat 16 (f * 4096 + c + x.toNat * 256 + y.toNat * 16)) = BitVec.ofNat 4 c := by
  have hx := x.isLt
  have hy := y.isLt
  have hn : (BitVec.ofNat 4 c).toNat = c := Nat.mod_eq_of_lt hc
  exact ⟨fieldFamily_ofNat _ f (by omega) (by omega), fieldX_ofNat _ x (by omega),
    fieldY_ofNat _ y (by omega), fieldN_ofNat _ _ (by omega)⟩

/-! ### The families (R51, R53) -/

theorem decodeWord_of_family_6 {w : Word} (h : fieldFamily w = 0x6#4) :
    decodeWord w = .ldImm (fieldX w) (fieldKK w) := by
  simp [decodeWord, describe, Descriptor.toInstr, classify, h]

theorem decodeWord_of_family_7 {w : Word} (h : fieldFamily w = 0x7#4) :
    decodeWord w = .addImm (fieldX w) (fieldKK w) := by
  simp [decodeWord, describe, Descriptor.toInstr, classify, h]

theorem decodeWord_of_family_C {w : Word} (h : fieldFamily w = 0xC#4) :
    decodeWord w = .rnd (fieldX w) (fieldKK w) := by
  simp [decodeWord, describe, Descriptor.toInstr, classify, h]

/-- In family 8 the class comes from the selector `N` alone (R53). -/
theorem decodeWord_of_family_8 {w : Word} (h : fieldFamily w = 0x8#4) :
    decodeWord w = { describe w with cls := classifyAlu (fieldN w) }.toInstr := by
  simp [decodeWord, describe, classify, h]

/-- A word of family 8 assembled from its selector `c` and two registers (R53, R62). -/
theorem decodeWord_aluWord (c : Nat) (x y : RegIdx) (hc : c < 16) :
    decodeWord (BitVec.ofNat 16 (0x8000 + c + x.toNat * 256 + y.toNat * 16))
      = { describe (BitVec.ofNat 16 (0x8000 + c + x.toNat * 256 + y.toNat * 16)) with
          x := x, y := y, cls := classifyAlu (BitVec.ofNat 4 c) }.toInstr := by
  obtain ⟨hfam, hx, hy, hn⟩ := fields_pairWord 0x8 c x y (by decide) hc
  rw [decodeWord_of_family_8 hfam, hn]
  simp only [describe, hx, hy]

/-! ### The words of the instructions (R62) -/

theorem encodedAs_ldImm (x : RegIdx) (kk : Byte) :
    encodedAs (0x6000 + x.toNat * 256 + kk.toNat) (.ldImm x kk) := by
  obtain ⟨hfam, hx, hkk⟩ := fields_immWord 0x6 x kk (by decide)
  exact (decodeWord_of_family_6 hfam).trans (by rw [hx, hkk])

theorem encodedAs_addImm (x : RegIdx) (kk : Byte) :
    encodedAs (0x7000 + x.toNat * 256 + kk.toNat) (.addImm x kk) := by
  obtain ⟨hfam, hx, hkk⟩ := fields_immWord 0x7 x kk (by decide)
  exact (decodeWord_of_family_7 hfam).trans (by rw [hx, hkk])

theorem encodedAs_rnd (x : RegIdx) (kk : Byte) :
    encodedAs (0xC000 + x.toNat * 256 + kk.toNat) (.rnd x kk) := by
  obtain ⟨hfam, hx, hkk⟩ := fields_immWord 0xC x kk (by decide)
  exact (decodeWord_of_family_C hfam).trans (by rw [hx, hkk])

theorem encodedAs_ldReg (x y : RegIdx) :
    encodedAs (0x8000 + x.toNat * 256 + y.toNat * 16) (.ldReg x y) :=
  decodeWord_aluWord 0x0 x y (by decide)

theorem encodedAs_orReg (x y : RegIdx) :
    encodedAs (0x8001 + x.toNat * 256 + y.toNat * 16) (.orReg x y) :=
  decodeWord_aluWord 0x1 x y (by decide)

theorem encodedAs_andReg (x y : RegIdx) :
    encodedAs (0x8002 + x.toNat * 256 + y.toNat * 16) (.andReg x y) :=
  decodeWord_aluWord 0x2 x y (by decide)

theorem encodedAs_xorReg (x y : RegIdx) :
    encodedAs (0x8003 + x.toNat * 256 + y.toNat * 16) (.xorReg x y) :=
  decodeWord_aluWord 0x3 x y (by decide)

theorem encodedAs_addReg (x y : RegIdx) :
    encodedAs (0x8004 + x.toNat * 256 + y.toNat * 16) (.addReg x y) :=
  decodeWord_aluWord 0x4 x y (by decide)

theorem encodedAs_subReg (x y : RegIdx) :
    encodedAs (0x8005 + x.toNat * 256 + y.toNat * 16) (.subReg x y) :=
  decodeWord_aluWord 0x5 x y (by decide)

theorem encodedAs_shr (x y : RegIdx) :
    encodedAs (0x8006 + x.toNat * 256 + y.toNat * 16) (.shr x y) :=
  decodeWord_aluWord 0x6 x y (by decide)

theorem encodedAs_subnReg (x y : RegIdx) :
    encodedAs (0x8007 + x.toNat * 256 + y.toNat * 16) (.subnReg x y) :=
  decodeWord_aluWord 0x7 x y (by decide)

theorem encodedAs_shl (x y : RegIdx) :
    encodedAs (0x800E + x.toNat * 256 + y.toNat * 16) (.shl x y) :=
  decodeWord_aluWord 0xE x y (by decide)

end Sys2Proof
end

section
/-! Load, arithmetic, logic, shift and random (spec 41_load_arith_logic.md R90 to R102): the flag values
and results as numbers, what one register write and what a flag write before it leave unchanged, and
the instructions built from them. -/

open Sys2Proof.Claims

namespace Sys2Proof.Machine

/-! ### The flags as numbers (R11) -/

theorem flagByte_toNat (b : Bool) : (flagByte b).toNat = b.toNat := by
  cases b <;> rfl

/-- The flag of a condition is its indicator. -/
theorem flagByte_decide_toNat (c : Prop) [Decidable c] :
    (flagByte (decide c)).toNat = if c then 1 else 0 := by
  rw [flagByte_toNat]
  by_cases hc : c <;> simp [hc]

theorem carryFlag_toNat (a b : Byte) :
    (carryFlag a b).toNat = if 255 < a.toNat + b.toNat then 1 else 0 :=
  flagByte_decide_toNat _

theorem notBorrowFlag_toNat (a b : Byte) :
    (notBorrowFlag a b).toNat = if b.toNat ≤ a.toNat then 1 else 0 :=
  flagByte_decide_toNat _

theorem shiftedOutRight_toNat (a : Byte) : (shiftedOutRight a).toNat = a.toNat % 2 := by
  rw [shiftedOutRight, flagByte_toNat, BitVec.getLsbD, Nat.toNat_testBit, pow_zero, Nat.div_one]

theorem shiftedOutLeft_toNat (a : Byte) : (shiftedOutLeft a).toNat = a.toNat / 128 := by
  have ha := a.isLt
  rw [shiftedOutLeft, flagByte_toNat, BitVec.getLsbD, Nat.toNat_testBit]
  omega

/-! ### The results as numbers -/

theorem Byte.toNat_sub (a b : Byte) : (a - b).toNat = (a.toNat + 256 - b.toNat) % 256 := by
  bv_omega

theorem Byte.toNat_shiftRight_one (a : Byte) : (a >>> 1).toNat = a.toNat / 2 := by
  rw [BitVec.toNat_ushiftRight, Nat.shiftRight_eq_div_pow, pow_one]

theorem Byte.toNat_shiftLeft_one (a : Byte) : (a <<< 1).toNat = 2 * a.toNat % 256 := by
  rw [BitVec.toNat_shiftLeft, Nat.shiftLeft_eq, pow_one, Nat.mul_comm]

/-! ### The register writes and their frames -/

theorem onlyRegsChange_refl (s : State) : onlyRegsChange s s :=
  (nothingChanges_setOutcome s .normal).2

/-- A register write adds no other change to what came before it. -/
theorem onlyRegsChange.setReg {s t : State} (h : onlyRegsChange s t) (x : RegIdx) (val : Byte) :
    onlyRegsChange s (t.setReg x val) :=
  h

theorem onlyRegsChange.setFlagThenReg {s t : State} (h : onlyRegsChange s t) (x : RegIdx)
    (flag result : Byte) : onlyRegsChange s (t.setFlagThenReg x flag result) :=
  (h.setReg VF flag).setReg x result

theorem onlyRegsChange.setOutcome {s t : State} (h : onlyRegsChange s t) (o : Transfer) :
    onlyRegsChange s (t.setOutcome o) :=
  h

/-- The result is written last, so it remains with X = F (R90, decision D7). -/
@[simp] theorem State.reg_setFlagThenReg_self (s : State) (x : RegIdx) (flag result : Byte) :
    (s.setFlagThenReg x flag result).reg x = result :=
  State.reg_setReg_self _ x result

/-- The flag is seen with X other than F (R90, decision D7). -/
theorem State.reg_VF_setFlagThenReg (s : State) {x : RegIdx} (flag result : Byte) (h : x ≠ VF) :
    (s.setFlagThenReg x flag result).reg VF = flag := by
  rw [State.setFlagThenReg, State.reg_setReg_of_ne _ _ h.symm, State.reg_setReg_self]

theorem State.reg_setFlagThenReg_of_ne (s : State) {x r : RegIdx} (flag result : Byte)
    (h : ¬ (r = x ∨ r = VF)) : (s.setFlagThenReg x flag result).reg r = s.reg r := by
  obtain ⟨hx, hF⟩ := not_or.1 h
  rw [State.setFlagThenReg, State.reg_setReg_of_ne _ _ hx, State.reg_setReg_of_ne _ _ hF]

theorem writesOnly_setReg (s : State) (x : RegIdx) (val : Byte) :
    writesOnly x val.toNat s ((s.setReg x val).setOutcome .normal) :=
  ⟨congrArg BitVec.toNat (s.reg_setReg_self x val), fun _ hr => s.reg_setReg_of_ne val hr,
    ((onlyRegsChange_refl s).setReg x val).setOutcome _, endsNormal_setOutcome (s.setReg x val)⟩

theorem writesFlagged_setFlagThenReg (s : State) (x : RegIdx) (flag result : Byte) :
    writesFlagged x flag.toNat result.toNat s
      ((s.setFlagThenReg x flag result).setOutcome .normal) :=
  ⟨congrArg BitVec.toNat (s.reg_setFlagThenReg_self x flag result),
    fun hx => congrArg BitVec.toNat (s.reg_VF_setFlagThenReg flag result hx),
    fun _ hr => s.reg_setFlagThenReg_of_ne flag result hr,
    ((onlyRegsChange_refl s).setFlagThenReg x flag result).setOutcome _,
    endsNormal_setOutcome (s.setFlagThenReg x flag result)⟩

/-! ### The handlers -/

theorem exec_ldImm (x : RegIdx) (kk : Byte) (s : State) :
    exec (.ldImm x kk) s = .next ((s.setReg x kk).setOutcome .normal) := rfl

theorem exec_addImm (x : RegIdx) (kk : Byte) (s : State) :
    exec (.addImm x kk) s = .next ((s.setReg x (s.reg x + kk)).setOutcome .normal) := rfl

theorem exec_ldReg (x y : RegIdx) (s : State) :
    exec (.ldReg x y) s = .next ((s.setReg x (s.reg y)).setOutcome .normal) := rfl

theorem exec_orReg (x y : RegIdx) (s : State) :
    exec (.orReg x y) s = .next ((s.setReg x (s.reg x ||| s.reg y)).setOutcome .normal) := rfl

theorem exec_andReg (x y : RegIdx) (s : State) :
    exec (.andReg x y) s = .next ((s.setReg x (s.reg x &&& s.reg y)).setOutcome .normal) := rfl

theorem exec_xorReg (x y : RegIdx) (s : State) :
    exec (.xorReg x y) s = .next ((s.setReg x (s.reg x ^^^ s.reg y)).setOutcome .normal) := rfl

theorem exec_addReg (x y : RegIdx) (s : State) :
    exec (.addReg x y) s = .next ((s.setFlagThenReg x (carryFlag (s.reg x) (s.reg y))
      (s.reg x + s.reg y)).setOutcome .normal) := rfl

theorem exec_subReg (x y : RegIdx) (s : State) :
    exec (.subReg x y) s = .next ((s.setFlagThenReg x (notBorrowFlag (s.reg x) (s.reg y))
      (s.reg x - s.reg y)).setOutcome .normal) := rfl

theorem exec_shr (x y : RegIdx) (s : State) :
    exec (.shr x y) s = .next ((s.setFlagThenReg x (shiftedOutRight (s.reg x))
      (s.reg x >>> 1)).setOutcome .normal) := rfl

theorem exec_subnReg (x y : RegIdx) (s : State) :
    exec (.subnReg x y) s = .next ((s.setFlagThenReg x (notBorrowFlag (s.reg y) (s.reg x))
      (s.reg y - s.reg x)).setOutcome .normal) := rfl

theorem exec_shl (x y : RegIdx) (s : State) :
    exec (.shl x y) s = .next ((s.setFlagThenReg x (shiftedOutLeft (s.reg x))
      (s.reg x <<< 1)).setOutcome .normal) := rfl

theorem exec_rnd (x : RegIdx) (kk : Byte) (s : State) :
    exec (.rnd x kk) s = .next ((s.setReg x (s.rand &&& kk)).setOutcome .normal) := rfl

/-! ### What a handler that ends in these writes does -/

/-- A handler that writes one register, its value given as a number. -/
theorem exists_writesOnly {i : Instr} {s : State} {x : RegIdx} {val : Byte} {n : Nat}
    (h : exec i s = .next ((s.setReg x val).setOutcome .normal)) (hval : val.toNat = n) :
    ∃ t, exec i s = .next t ∧ writesOnly x n s t :=
  ⟨_, h, hval ▸ writesOnly_setReg s x val⟩

/-- A handler that writes one register, its value given bit by bit. -/
theorem exists_writesOnly_bits {i : Instr} {s : State} {x : RegIdx} {val : Byte} {bit : Nat → Bool}
    (h : exec i s = .next ((s.setReg x val).setOutcome .normal))
    (hval : ∀ k, val.getLsbD k = bit k) :
    ∃ t, exec i s = .next t ∧ writesOnly x (t.reg x).toNat s t
      ∧ ∀ k, k < 8 → (t.reg x).getLsbD k = bit k := by
  refine ⟨_, h, ?_, fun k _ => ?_⟩ <;> rw [State.reg_setOutcome, State.reg_setReg_self]
  · exact writesOnly_setReg s x val
  · exact hval k

/-- A flag-defining handler, its flag and result given as numbers. -/
theorem exists_writesFlagged {i : Instr} {s : State} {x : RegIdx} {flag result : Byte} {f n : Nat}
    (h : exec i s = .next ((s.setFlagThenReg x flag result).setOutcome .normal))
    (hflag : flag.toNat = f) (hresult : result.toNat = n) :
    ∃ t, exec i s = .next t ∧ writesFlagged x f n s t :=
  ⟨_, h, hflag ▸ hresult ▸ writesFlagged_setFlagThenReg s x flag result⟩

/-! ### The obligations -/

/-- Settles O25: the load is one register write. -/
theorem loadImmediateSetsTheRegister : Obligations.LoadImmediateSetsTheRegister := by
  intro x kk s
  exact ⟨encodedAs_ldImm x kk, exists_writesOnly (exec_ldImm x kk s) rfl⟩

/-- Settles O26: the addition of two bytes is the sum modulo 256, and neither instruction writes the
flag. -/
theorem immediateAdditionAndCopy : Obligations.ImmediateAdditionAndCopy := by
  intro x y kk s
  exact ⟨encodedAs_addImm x kk,
    exists_writesOnly (exec_addImm x kk s) (BitVec.toNat_add (s.reg x) kk),
    encodedAs_ldReg x y, exists_writesOnly (exec_ldReg x y s) rfl⟩

/-- Settles O27: each is one register write of a bitwise operation. -/
theorem bitwiseOperationsLeaveTheFlag : Obligations.BitwiseOperationsLeaveTheFlag := by
  intro x y s
  exact ⟨encodedAs_orReg x y, exists_writesOnly_bits (exec_orReg x y s) fun _ => BitVec.getLsbD_or,
    encodedAs_andReg x y, exists_writesOnly_bits (exec_andReg x y s) fun _ => BitVec.getLsbD_and,
    encodedAs_xorReg x y, exists_writesOnly_bits (exec_xorReg x y s) fun _ => BitVec.getLsbD_xor⟩

/-- Settles O28: the carry is written before the sum, so the sum remains with X = F. -/
theorem additionSetsTheCarry : Obligations.AdditionSetsTheCarry := by
  intro x y s
  exact ⟨encodedAs_addReg x y, exists_writesFlagged (exec_addReg x y s)
    (carryFlag_toNat (s.reg x) (s.reg y)) (BitVec.toNat_add (s.reg x) (s.reg y))⟩

/-- Settles O29: both take NOT borrow and the difference of the same two bytes, in opposite order. -/
theorem subtractionsSetNotBorrow : Obligations.SubtractionsSetNotBorrow := by
  intro x y s
  exact ⟨encodedAs_subReg x y, exists_writesFlagged (exec_subReg x y s)
      (notBorrowFlag_toNat (s.reg x) (s.reg y)) (Byte.toNat_sub (s.reg x) (s.reg y)),
    encodedAs_subnReg x y, exists_writesFlagged (exec_subnReg x y s)
      (notBorrowFlag_toNat (s.reg y) (s.reg x)) (Byte.toNat_sub (s.reg y) (s.reg x))⟩

/-- Settles O30: halving moves out bit 0 and doubling modulo 256 moves out bit 7, whatever Y is. -/
theorem shiftsMoveOneBitIntoTheFlag : Obligations.ShiftsMoveOneBitIntoTheFlag := by
  intro x y s
  exact ⟨encodedAs_shr x y, exists_writesFlagged (exec_shr x y s)
      (shiftedOutRight_toNat (s.reg x)) (Byte.toNat_shiftRight_one (s.reg x)),
    encodedAs_shl x y, exists_writesFlagged (exec_shl x y s)
      (shiftedOutLeft_toNat (s.reg x)) (Byte.toNat_shiftLeft_one (s.reg x))⟩

/-- Settles O31: one register write of the cycle's random byte and the mask, for every value of it. -/
theorem randomByteIsMasked : Obligations.RandomByteIsMasked := by
  intro x kk s
  exact ⟨encodedAs_rnd x kk, exists_writesOnly_bits (exec_rnd x kk s) fun _ => BitVec.getLsbD_and⟩

end Sys2Proof.Machine
end

section
/-! The words of the index-register and memory instructions, and the fields of every word of family F
(spec 30_encoding.md R46, R51, R55, R62). -/

open Sys2Proof.Claims

namespace Sys2Proof

/-- The fields of a word of the shape `family, X` with a fixed low byte (R46). -/
theorem fields_singleWord (f c : Nat) (x : RegIdx) (hf : f < 16) (hc : c < 256) :
    fieldFamily (BitVec.ofNat 16 (f * 4096 + c + x.toNat * 256)) = BitVec.ofNat 4 f
      ∧ fieldX (BitVec.ofNat 16 (f * 4096 + c + x.toNat * 256)) = x
      ∧ fieldKK (BitVec.ofNat 16 (f * 4096 + c + x.toNat * 256)) = BitVec.ofNat 8 c := by
  have hx := x.isLt
  have hkk : (BitVec.ofNat 8 c).toNat = c := Nat.mod_eq_of_lt hc
  exact ⟨fieldFamily_ofNat _ f (by omega) (by omega), fieldX_ofNat _ x (by omega),
    fieldKK_ofNat _ _ (by omega)⟩

/-! ### The families (R51, R55) -/

theorem decodeWord_of_family_A {w : Word} (h : fieldFamily w = 0xA#4) :
    decodeWord w = .ldI (fieldNNN w) := by
  simp [decodeWord, describe, Descriptor.toInstr, classify, h]

/-- In family F the class comes from the selector `KK` alone (R55). -/
theorem decodeWord_of_family_F {w : Word} (h : fieldFamily w = 0xF#4) :
    decodeWord w = { describe w with cls := classifyMisc (fieldKK w) }.toInstr := by
  simp [decodeWord, describe, classify, h]

/-- A word of family F assembled from its selector `c` and a register (R55, R62). -/
theorem decodeWord_miscWord (c : Nat) (x : RegIdx) (hc : c < 256) :
    decodeWord (BitVec.ofNat 16 (0xF000 + c + x.toNat * 256))
      = { describe (BitVec.ofNat 16 (0xF000 + c + x.toNat * 256)) with
          x := x, cls := classifyMisc (BitVec.ofNat 8 c) }.toInstr := by
  obtain ⟨hfam, hx, hkk⟩ := fields_singleWord 0xF c x (by decide) hc
  rw [decodeWord_of_family_F hfam, hkk]
  simp only [describe, hx]

/-! ### The words of the instructions (R62) -/

theorem encodedAs_ldI (nnn : Addr) : encodedAs (0xA000 + nnn.toNat) (.ldI nnn) := by
  obtain ⟨hfam, hnnn⟩ := fields_addrWord 0xA nnn (by decide)
  exact (decodeWord_of_family_A hfam).trans (by rw [hnnn])

theorem encodedAs_addI (x : RegIdx) : encodedAs (0xF01E + x.toNat * 256) (.addI x) :=
  decodeWord_miscWord 0x1E x (by decide)

theorem encodedAs_ldF (x : RegIdx) : encodedAs (0xF029 + x.toNat * 256) (.ldF x) :=
  decodeWord_miscWord 0x29 x (by decide)

theorem encodedAs_ldB (x : RegIdx) : encodedAs (0xF033 + x.toNat * 256) (.ldB x) :=
  decodeWord_miscWord 0x33 x (by decide)

theorem encodedAs_stRegs (x : RegIdx) : encodedAs (0xF055 + x.toNat * 256) (.stRegs x) :=
  decodeWord_miscWord 0x55 x (by decide)

theorem encodedAs_ldRegs (x : RegIdx) : encodedAs (0xF065 + x.toNat * 256) (.ldRegs x) :=
  decodeWord_miscWord 0x65 x (by decide)

end Sys2Proof
end

section
/-! Index register and memory (spec 42_index_memory.md R110 to R115): a run of bytes in the state's
memory, what a write of `I`, a run and a block load leave unchanged, and the instructions built from
them. -/

open Sys2Proof.Claims

namespace Sys2Proof.Machine

/-- A handler that leaves PC alone and ends normally. -/
theorem samePc.endsNormal_setOutcome {s t : State} (h : samePc s t) :
    endsNormal s (t.setOutcome .normal) :=
  ⟨rfl, h, congrArg (· + 2#16) h⟩

/-! ### The numbers involved -/

/-- Masking a byte with 0x0F keeps its remainder modulo 16 (R112, R130). -/
theorem State.regNibble_eq (s : State) (x : RegIdx) : s.regNibble x = (s.reg x).toNat % 16 := by
  rw [State.regNibble, BitVec.toNat_and]
  exact Nat.and_two_pow_sub_one_eq_mod (s.reg x).toNat 4

/-- R112: the glyph address of a digit needs no reduction. -/
theorem glyphAddr_toNat {d : Nat} (hd : d < 16) : (glyphAddr d).toNat = 5 * d := by
  rw [glyphAddr, BitVec.toNat_ofNat, Nat.mod_eq_of_lt (by omega)]

/-- R111: the sum with a register is taken modulo 65536. -/
theorem index_add_regWide_toNat (s : State) (x : RegIdx) :
    (s.index + s.regWide x).toNat = (s.index.toNat + (s.reg x).toNat) % 65536 := by
  rw [BitVec.toNat_add, State.regWide_toNat]

/-- R113: a digit of a byte fits in a byte. -/
theorem bcdDigits_getElem_toNat (a : Byte) (k : Nat) (hk : k < (bcdDigits a).length) :
    (bcdDigits a)[k].toNat = decimalDigit a.toNat k := by
  have ha := a.isLt
  match k, hk with
  | 0, _ => exact Nat.mod_eq_of_lt (show a.toNat / 100 < 256 by omega)
  | 1, _ => exact Nat.mod_eq_of_lt (show a.toNat / 10 % 10 < 256 by omega)
  | 2, _ => exact Nat.mod_eq_of_lt (show a.toNat % 10 < 256 by omega)

/-! ### A run of bytes in the state's memory (R31, R43, log entry 6) -/

/-- A run of at most 4096 bytes does not overwrite itself. -/
theorem State.memRead_writeRun (s : State) (base : Nat) (bytes : List Byte) (hs : Inv s)
    (hlen : bytes.length ≤ 4096) (k : Nat) (hk : k < bytes.length) :
    (s.writeRun base bytes).memRead (base + k) = bytes[k] :=
  Memory.read_writeBytes bytes s.mem base k hs.1 hlen hk

theorem State.memRead_writeRun_of_ne (s : State) (base : Nat) (bytes : List Byte) (hs : Inv s)
    (a : Nat) (ha : ∀ k < bytes.length, a % 4096 ≠ (base + k) % 4096) :
    (s.writeRun base bytes).memRead a = s.memRead a :=
  Memory.read_writeBytes_of_ne bytes s.mem base a hs.1 ha

theorem storesRun_writeRun {s : State} (hs : Inv s) (base : Nat) {bytes : List Byte}
    {byte : Nat → Nat} (hlen : bytes.length ≤ 4096)
    (hbyte : ∀ k (hk : k < bytes.length), bytes[k].toNat = byte k) :
    storesRun base bytes.length byte s (s.writeRun base bytes) := by
  have hread : ∀ k, k < bytes.length →
      ((s.writeRun base bytes).memRead (base + k)).toNat = byte k := fun k hk => by
    rw [s.memRead_writeRun base bytes hs hlen k hk, hbyte k hk]
  refine ⟨fun k hk => ⟨?_, hread k hk⟩, s.memRead_writeRun_of_ne base bytes hs⟩
  rw [State.memRead_mod]
  exact hread k hk

/-! ### The frames of a write of `I`, a run of bytes and a block load -/

theorem onlyIndexChanges_setIndex (s : State) (val : Word) : onlyIndexChanges s (s.setIndex val) :=
  ⟨fun _ => rfl, (onlyRegsChange_refl s).2⟩

theorem onlyMemoryChanges_writeRun (s : State) (base : Nat) (bytes : List Byte) :
    onlyMemoryChanges s (s.writeRun base bytes) :=
  ⟨fun _ => rfl, rfl, rfl, ⟨rfl, fun _ _ => rfl⟩, ⟨rfl, rfl⟩, fun _ _ => rfl, rfl, rfl, rfl⟩

theorem onlyRegsChange_loadRegsFrom (s : State) (i n : Nat) :
    onlyRegsChange s (loadRegsFrom s i n) := by
  rw [loadRegsFrom_eq]
  exact onlyRegsChange_refl s

/-- Inside the block a register holds the byte of its own address. -/
theorem reg_loadRegsFrom_block (s : State) (x r : RegIdx) (h : r.toNat ≤ x.toNat) :
    (loadRegsFrom s 0 (blockCount x)).reg r = s.memRead (s.index.toNat + r.toNat) := by
  have hx := x.isLt
  rw [blockCount, reg_loadRegsFrom _ _ _ (by omega), if_pos (by omega), State.indexed]

/-- Above the block a register keeps its value. -/
theorem sameRegsExcept_loadRegsFrom (s : State) (x : RegIdx) :
    sameRegsExcept (fun r => r.toNat ≤ x.toNat) s (loadRegsFrom s 0 (blockCount x)) := by
  intro r hr
  have hx := x.isLt
  rw [blockCount, reg_loadRegsFrom _ _ _ (by omega), if_neg (by omega)]

/-! ### The handlers -/

theorem exec_ldI (nnn : Addr) (s : State) :
    exec (.ldI nnn) s = .next ((s.setIndex (addrImm nnn)).setOutcome .normal) := rfl

theorem exec_addI (x : RegIdx) (s : State) :
    exec (.addI x) s = .next ((s.setIndex (s.index + s.regWide x)).setOutcome .normal) := rfl

theorem exec_ldF (x : RegIdx) (s : State) :
    exec (.ldF x) s = .next ((s.setIndex (glyphAddr (s.regNibble x))).setOutcome .normal) := rfl

theorem exec_ldB (x : RegIdx) (s : State) :
    exec (.ldB x) s
      = .next ((s.writeRun s.index.toNat (bcdDigits (s.reg x))).setOutcome .normal) := rfl

theorem exec_stRegs (x : RegIdx) (s : State) :
    exec (.stRegs x) s
      = .next ((s.writeRun s.index.toNat (s.regBlock (blockCount x))).setOutcome .normal) := rfl

theorem exec_ldRegs (x : RegIdx) (s : State) :
    exec (.ldRegs x) s = .next ((loadRegsFrom s 0 (blockCount x)).setOutcome .normal) := rfl

/-! ### What a handler that ends in these writes does -/

/-- A handler that writes `I`, its value given as a number. -/
theorem exists_onlyIndexChanges {i : Instr} {s : State} {val : Word} {n : Nat}
    (h : exec i s = .next ((s.setIndex val).setOutcome .normal)) (hval : val.toNat = n) :
    ∃ t, exec i s = .next t ∧ t.index.toNat = n ∧ onlyIndexChanges s t ∧ endsNormal s t :=
  ⟨_, h, hval, onlyIndexChanges_setIndex s val, endsNormal_setOutcome (s.setIndex val)⟩

/-- A handler that stores a run of bytes from `I` upward, each byte given as a number. -/
theorem exists_storesRun {i : Instr} {s : State} {bytes : List Byte} {byte : Nat → Nat}
    (hs : Inv s) (h : exec i s = .next ((s.writeRun s.index.toNat bytes).setOutcome .normal))
    (hlen : bytes.length ≤ 4096) (hbyte : ∀ k (hk : k < bytes.length), bytes[k].toNat = byte k) :
    ∃ t, exec i s = .next t ∧ storesRun s.index.toNat bytes.length byte s t
      ∧ onlyMemoryChanges s t ∧ endsNormal s t :=
  ⟨_, h, storesRun_writeRun hs s.index.toNat hlen hbyte,
    onlyMemoryChanges_writeRun s s.index.toNat bytes,
    endsNormal_setOutcome (s.writeRun s.index.toNat bytes)⟩

/-! ### The obligations -/

/-- Settles O36: byte k of the run is `V[k]`, and at most 16 bytes cannot wrap onto themselves. -/
theorem registerBlockIsStored : Obligations.RegisterBlockIsStored := by
  intro x s hs
  have hx := x.isLt
  have hlen : (s.regBlock (blockCount x)).length = x.toNat + 1 := s.length_regBlock _
  refine ⟨encodedAs_stRegs x, hlen ▸ exists_storesRun hs (exec_stRegs x s) (by omega) ?_⟩
  exact fun k hk => congrArg BitVec.toNat (s.getElem_regBlock _ k hk)

/-- Settles O37: a block load writes registers only, so every byte is read from the memory the cycle
began with. -/
theorem registerBlockIsLoaded : Obligations.RegisterBlockIsLoaded := by
  intro x s
  have hframe := onlyRegsChange_loadRegsFrom s 0 (blockCount x)
  have ⟨_, hpc, _⟩ := hframe
  refine ⟨encodedAs_ldRegs x, _, exec_ldRegs x s, fun r hr => ?_, sameRegsExcept_loadRegsFrom s x,
    hframe.setOutcome _, hpc.endsNormal_setOutcome⟩
  rw [State.memRead_mod, State.reg_setOutcome, reg_loadRegsFrom_block s x r hr]
  exact ⟨rfl, rfl⟩

/-- Settles O33: each is one write of `I`; only the sum with a register can wrap. -/
theorem indexRegisterWrites : Obligations.IndexRegisterWrites := by
  intro x nnn s
  have hglyph : (glyphAddr (s.regNibble x)).toNat = 5 * ((s.reg x).toNat % 16) := by
    rw [State.regNibble_eq, glyphAddr_toNat (Nat.mod_lt _ (by decide))]
  exact ⟨encodedAs_ldI nnn, exists_onlyIndexChanges (exec_ldI nnn s) (addrImm_toNat nnn),
    encodedAs_addI x, exists_onlyIndexChanges (exec_addI x s) (index_add_regWide_toNat s x),
    encodedAs_ldF x, exists_onlyIndexChanges (exec_ldF x s) hglyph⟩

/-- Settles O35: the run of the three digits, hundreds first. -/
theorem decimalDigitsAreStored : Obligations.DecimalDigitsAreStored := by
  intro x s hs
  have hlen : (bcdDigits (s.reg x)).length ≤ 4096 := show 3 ≤ 4096 by decide
  exact ⟨encodedAs_ldB x, exists_storesRun hs (exec_ldB x s) hlen
    (bcdDigits_getElem_toNat (s.reg x))⟩

end Sys2Proof.Machine
end

section
/-! The words of the display instructions (spec 30_encoding.md R51, R52, R62). -/

open Sys2Proof.Claims

namespace Sys2Proof

theorem decodeWord_of_family_D {w : Word} (h : fieldFamily w = 0xD#4) :
    decodeWord w = .draw (fieldX w) (fieldY w) (fieldN w) := by
  simp [decodeWord, describe, Descriptor.toInstr, classify, h]

theorem encodedAs_draw (x y : RegIdx) (n : Nibble) :
    encodedAs (0xD000 + x.toNat * 256 + y.toNat * 16 + n.toNat) (.draw x y n) := by
  obtain ⟨hfam, hx, hy, hn⟩ := fields_regWord 0xD x y n (by decide)
  exact (decodeWord_of_family_D hfam).trans (by rw [hx, hy, hn])

theorem encodedAs_cls : encodedAs 0x00E0 .cls := by
  rw [encodedAs]
  decide

end Sys2Proof
end

section
/-! Display (spec 43_display.md R120 to R122): the pixels a draw flips, loop by loop, and what the
two instructions leave unchanged. -/

open Sys2Proof.Claims

namespace Sys2Proof.Machine

/-! ### Flipping a set of pixels (R122)

A draw carries a framebuffer and the collision so far.  Each part of it flips the pixels of one set,
and two parts with disjoint sets together flip the union: "within one draw no pixel is touched
twice". -/

/-- R120: coordinates name a pixel modulo the size of their own axis. -/
theorem Framebuffer.pixel_congr (f : Framebuffer) {y x y' x' : Nat} (hy : y % 32 = y' % 32)
    (hx : x % 64 = x' % 64) : Framebuffer.pixel f y x = Framebuffer.pixel f y' x' := by
  simp only [Framebuffer.pixel, hy, hx]

/-- From `a` to `b` exactly the pixels of `covers` flip, and a collision is recorded when one of
them was 1 in `a`; the coordinates are not reduced, so `covers` holds at every name of a pixel or at
none. -/
structure Flips (covers : Nat → Nat → Prop) (a b : Framebuffer × Bool) : Prop where
  pixel : ∀ py px, Framebuffer.pixel b.1 py px ≠ Framebuffer.pixel a.1 py px ↔ covers py px
  collision : b.2 = true ↔
    a.2 = true ∨ ∃ py px, covers py px ∧ Framebuffer.pixel a.1 py px = true

theorem Flips.congr {c d : Nat → Nat → Prop} {a b : Framebuffer × Bool} (h : Flips c a b)
    (hcd : ∀ py px, c py px ↔ d py px) : Flips d a b :=
  (funext₂ fun py px => propext (hcd py px) : c = d) ▸ h

theorem Flips.refl (a : Framebuffer × Bool) : Flips (fun _ _ => False) a a :=
  ⟨fun _ _ => by simp, by simp⟩

/-- A pixel of the second set is not in the first, so the second part finds it as it was in `a`. -/
theorem Flips.trans {c d : Nat → Nat → Prop} {a b e : Framebuffer × Bool} (hc : Flips c a b)
    (hd : Flips d b e) (hdisj : ∀ py px, c py px → ¬ d py px) :
    Flips (fun py px => c py px ∨ d py px) a e where
  pixel py px := by
    have hab := hc.pixel py px
    have hbe := hd.pixel py px
    have hcd := hdisj py px
    grind
  collision := by
    have hsame : ∀ py px, d py px → Framebuffer.pixel b.1 py px = Framebuffer.pixel a.1 py px :=
      fun py px h => not_not.mp fun hne => hdisj py px ((hc.pixel py px).mp hne) h
    rw [hd.collision, hc.collision, or_assoc]
    grind

/-- A loop whose rounds flip pairwise disjoint sets flips their union. -/
theorem Flips.foldl_range {c : Nat → Nat → Nat → Prop}
    {round : Framebuffer × Bool → Nat → Framebuffer × Bool} (n : Nat) (a : Framebuffer × Bool)
    (hround : ∀ k < n, ∀ b, Flips (c k) b (round b k))
    (hdisj : ∀ j k, j < k → k < n → ∀ py px, c j py px → ¬ c k py px) :
    Flips (fun py px => ∃ k < n, c k py px) a ((List.range n).foldl round a) := by
  induction n with
  | zero => exact (Flips.refl a).congr (by simp)
  | succ n ih =>
    have hinit := ih (fun k hk => hround k (by omega)) (fun j k hjk hk => hdisj j k hjk (by omega))
    have hlast := hround n (by omega) ((List.range n).foldl round a)
    rw [List.range_succ, List.foldl_append, List.foldl_cons, List.foldl_nil]
    refine (hinit.trans hlast fun py px ⟨j, hj, h⟩ => hdisj j n hj (by omega) py px h).congr ?_
    intro py px
    rw [Nat.exists_lt_succ_right]

/-! ### The loops of a draw -/

/-- The pixel one sprite bit flips, each axis wrapping on its own. -/
theorem drawPixel_flips (bit : Bool) (y x : Nat) (a : Framebuffer × Bool) :
    Flips (fun py px => bit = true ∧ py % 32 = y % 32 ∧ px % 64 = x % 64) a
      (drawPixel bit y x a) := by
  cases bit with
  | false => exact (Flips.refl a).congr (by simp)
  | true =>
    refine ⟨fun py px => ?_, ?_⟩
    · have hxor : ∀ p q : Bool, (p ^^ q) ≠ p ↔ q = true := by decide
      rw [drawPixel, if_pos rfl, Framebuffer.pixel_flip, hxor]
      simp
    · have hread : (∃ py px, (py % 32 = y % 32 ∧ px % 64 = x % 64)
          ∧ Framebuffer.pixel a.1 py px = true) ↔ Framebuffer.pixel a.1 y x = true :=
        ⟨fun ⟨_, _, ⟨hy, hx⟩, h⟩ => (a.1.pixel_congr hy hx).symm.trans h,
          fun h => ⟨y, x, ⟨rfl, rfl⟩, h⟩⟩
      simp [drawPixel, hread]

/-- The columns of a row are 8, fewer than 64. -/
theorem drawRow_flips (b : Byte) (y x : Nat) (a : Framebuffer × Bool) :
    Flips (fun py px => ∃ col < 8, spriteBit b col = true ∧ py % 32 = y % 32
      ∧ px % 64 = (x + col) % 64) a (drawRow b y x a) :=
  Flips.foldl_range 8 a (fun col _ r => drawPixel_flips (spriteBit b col) y (x + col) r)
    (fun _ _ _ _ _ _ ⟨_, _, _⟩ ⟨_, _, _⟩ => by omega)

/-- The rows of a sprite are at most 15, fewer than 32. -/
theorem drawRows_flips (m : Memory) (base y x n : Nat) (f : Framebuffer) (hn : n ≤ 32) :
    Flips (fun py px => ∃ row < n, ∃ col < 8, spriteBit (Memory.read m (base + row)) col = true
      ∧ py % 32 = (y + row) % 32 ∧ px % 64 = (x + col) % 64) (f, false)
      (drawRows m base y x n f) :=
  Flips.foldl_range n (f, false)
    (fun row _ r => drawRow_flips (Memory.read m (base + row)) (y + row) x r)
    (fun _ _ _ _ _ _ ⟨_, _, _, _, _⟩ ⟨_, _, _, _, _⟩ => by omega)

/-- What `DRW Vx, Vy, n` leaves on the screen and as the collision (R122). -/
def State.drawn (s : State) (x y : RegIdx) (n : Nibble) : Framebuffer × Bool :=
  drawRows s.mem s.index.toNat (s.reg y).toNat (s.reg x).toNat n.toNat s.fb

/-- R122: a draw flips the pixels the sprite covers. -/
theorem State.drawn_flips (s : State) (x y : RegIdx) (n : Nibble) :
    Flips (fun py px => spriteCovers s x y n (py % 32) (px % 64)) (s.fb, false)
      (s.drawn x y n) := by
  have hn := n.isLt
  refine (drawRows_flips s.mem s.index.toNat (s.reg y).toNat (s.reg x).toNat n.toNat s.fb
    (by omega)).congr fun py px => ?_
  simp only [spriteCovers, State.memRead, spriteBit, exists_and_left]

theorem spriteCovers_mod {s : State} {x y : RegIdx} {n : Nibble} {py px : Nat}
    (h : spriteCovers s x y n py px) : spriteCovers s x y n (py % 32) (px % 64) := by
  have ⟨row, col, _, _, _, hpy, hpx⟩ := h
  rwa [show py % 32 = py by omega, show px % 64 = px by omega]

/-- A pixel of the grid flips exactly when the sprite covers it. -/
theorem State.pixel_drawn_ne_iff (s : State) (x y : RegIdx) (n : Nibble) {py px : Nat}
    (hpy : py < 32) (hpx : px < 64) :
    Framebuffer.pixel (s.drawn x y n).1 py px ≠ s.pixel py px ↔ spriteCovers s x y n py px := by
  have h := (s.drawn_flips x y n).pixel py px
  rwa [Nat.mod_eq_of_lt hpy, Nat.mod_eq_of_lt hpx] at h

/-- The collision is a covered pixel that was 1. -/
theorem State.drawn_collision_iff (s : State) (x y : RegIdx) (n : Nibble) :
    (s.drawn x y n).2 = true ↔ ∃ py px, spriteCovers s x y n py px ∧ s.pixel py px = true := by
  rw [(s.drawn_flips x y n).collision]
  constructor
  · rintro (h | ⟨py, px, hcov, hset⟩)
    · cases h
    · exact ⟨py % 32, px % 64, hcov,
        (s.fb.pixel_congr (Nat.mod_mod py 32) (Nat.mod_mod px 64)).trans hset⟩
  · rintro ⟨py, px, hcov, hset⟩
    exact .inr ⟨py, px, spriteCovers_mod hcov, hset⟩

/-! ### The frame of a new framebuffer -/

theorem onlyScreenAndRegsChange_setFb (s : State) (f : Framebuffer) :
    onlyScreenAndRegsChange s (s.setFb f) :=
  ⟨rfl, rfl, ⟨rfl, fun _ _ => rfl⟩, ⟨rfl, rfl⟩, fun _ => rfl, rfl, rfl, rfl⟩

theorem onlyScreenAndRegsChange.setReg {s t : State} (h : onlyScreenAndRegsChange s t) (x : RegIdx)
    (val : Byte) : onlyScreenAndRegsChange s (t.setReg x val) :=
  h

theorem onlyScreenAndRegsChange.setOutcome {s t : State} (h : onlyScreenAndRegsChange s t)
    (o : Transfer) : onlyScreenAndRegsChange s (t.setOutcome o) :=
  h

/-! ### The handlers -/

theorem exec_cls (s : State) :
    exec .cls s = .next ((s.setFb Framebuffer.clear).setOutcome .normal) := rfl

theorem exec_draw (x y : RegIdx) (n : Nibble) (s : State) :
    exec (.draw x y n) s = .next (((s.setFb (s.drawn x y n).1).setReg VF
      (flagByte (s.drawn x y n).2)).setOutcome .normal) := rfl

/-! ### The obligations -/

/-- Settles O40: the new framebuffer is the clear one, and no register is written. -/
theorem clearSetsEveryPixelToZero : Obligations.ClearSetsEveryPixelToZero := by
  intro s
  exact ⟨encodedAs_cls, _, exec_cls s, Framebuffer.pixel_clear, fun _ => rfl,
    (onlyScreenAndRegsChange_setFb s _).setOutcome _, endsNormal_setOutcome (s.setFb _)⟩

/-- Settles O41: the rounds of both loops flip disjoint pixels, so each covered pixel flips once and
is found as it was before the draw; the coordinates are read before `VF` is written. -/
theorem drawFlipsThePixelsUnderTheSprite : Obligations.DrawFlipsThePixelsUnderTheSprite := by
  intro x y n s
  refine ⟨encodedAs_draw x y n, _, exec_draw x y n s, fun py px hpy hpx => ⟨fun hcov => ?_,
    fun hcov => ?_⟩, fun hhit => ?_, fun hmiss => ?_, fun r hr => ?_,
    ((onlyScreenAndRegsChange_setFb s _).setReg _ _).setOutcome _,
    endsNormal_setOutcome ((s.setFb _).setReg _ _)⟩
  · exact Bool.eq_not.mpr ((s.pixel_drawn_ne_iff x y n hpy hpx).mpr hcov)
  · exact not_not.mp (mt (s.pixel_drawn_ne_iff x y n hpy hpx).mp hcov)
  · rw [State.reg_setOutcome, State.reg_setReg_self, (s.drawn_collision_iff x y n).mpr hhit]
    rfl
  · have hnone := Bool.eq_false_iff.mpr (mt (s.drawn_collision_iff x y n).mp hmiss)
    rw [State.reg_setOutcome, State.reg_setReg_self, hnone]
    rfl
  · exact State.reg_setReg_of_ne (s.setFb _) _ hr

end Sys2Proof.Machine
end

section
/-! The words of the key and timer instructions (spec 30_encoding.md R54, R55, R62). -/

open Sys2Proof.Claims

namespace Sys2Proof

/-- In family E the class comes from the selector `KK` alone (R54). -/
theorem decodeWord_of_family_E {w : Word} (h : fieldFamily w = 0xE#4) :
    decodeWord w = { describe w with cls := classifyKey (fieldKK w) }.toInstr := by
  simp [decodeWord, describe, classify, h]

/-- A word of family E assembled from its selector `c` and a register (R54, R62). -/
theorem decodeWord_keyWord (c : Nat) (x : RegIdx) (hc : c < 256) :
    decodeWord (BitVec.ofNat 16 (0xE000 + c + x.toNat * 256))
      = { describe (BitVec.ofNat 16 (0xE000 + c + x.toNat * 256)) with
          x := x, cls := classifyKey (BitVec.ofNat 8 c) }.toInstr := by
  obtain ⟨hfam, hx, hkk⟩ := fields_singleWord 0xE c x (by decide) hc
  rw [decodeWord_of_family_E hfam, hkk]
  simp only [describe, hx]

theorem encodedAs_skp (x : RegIdx) : encodedAs (0xE09E + x.toNat * 256) (.skp x) :=
  decodeWord_keyWord 0x9E x (by decide)

theorem encodedAs_sknp (x : RegIdx) : encodedAs (0xE0A1 + x.toNat * 256) (.sknp x) :=
  decodeWord_keyWord 0xA1 x (by decide)

theorem encodedAs_ldVxDt (x : RegIdx) : encodedAs (0xF007 + x.toNat * 256) (.ldVxDt x) :=
  decodeWord_miscWord 0x07 x (by decide)

theorem encodedAs_ldVxK (x : RegIdx) : encodedAs (0xF00A + x.toNat * 256) (.ldVxK x) :=
  decodeWord_miscWord 0x0A x (by decide)

theorem encodedAs_ldDtVx (x : RegIdx) : encodedAs (0xF015 + x.toNat * 256) (.ldDtVx x) :=
  decodeWord_miscWord 0x15 x (by decide)

theorem encodedAs_ldStVx (x : RegIdx) : encodedAs (0xF018 + x.toNat * 256) (.ldStVx x) :=
  decodeWord_miscWord 0x18 x (by decide)

end Sys2Proof
end

section
/-! Keys and timers (spec 44_keys_timers.md R130 to R135): which key the wait takes, what a timer write
leaves unchanged, when the sound is on, and the six instructions. -/

open Sys2Proof.Claims

namespace Sys2Proof.Machine

/-! ### The key wait's scan (R132) -/

/-- The candidates are tried in ascending order. -/
theorem waitKeys_eq_range' : waitKeys = List.range' 1 15 := rfl

/-- The wait takes a key exactly when it is the least pressed one of 1 to 15. -/
theorem firstPressed_waitKeys_eq_some_iff (s : State) (k : Nat) :
    s.firstPressed waitKeys = some k
      ↔ (1 ≤ k ∧ k ≤ 15) ∧ s.key k = true ∧ ∀ j, 1 ≤ j → j < k → s.key j = false := by
  rw [firstPressed_eq_find, waitKeys_eq_range', List.find?_range'_eq_some]
  simp only [List.mem_range'_1, Bool.not_eq_true', Nat.lt_succ_iff]
  tauto

/-- The wait goes on exactly when none of the keys 1 to 15 is pressed. -/
theorem firstPressed_waitKeys_eq_none_iff (s : State) :
    s.firstPressed waitKeys = none ↔ ∀ k, 1 ≤ k → k ≤ 15 → s.key k = false := by
  rw [firstPressed_eq_find, waitKeys_eq_range', List.find?_range'_eq_none]
  simp only [Bool.not_eq_true', Nat.lt_succ_iff]

/-! ### The timers (R15, R73) -/

theorem onlyTimersChange_setDt (s : State) (val : Byte) : onlyTimersChange s (s.setDt val) :=
  ⟨fun _ => rfl, rfl, rfl, ⟨rfl, fun _ _ => rfl⟩, fun _ => rfl, fun _ _ => rfl, rfl, rfl, rfl⟩

theorem onlyTimersChange_setSt (s : State) (val : Byte) : onlyTimersChange s (s.setSt val) :=
  onlyTimersChange_setDt s val

theorem onlyTimersChange.setOutcome {s t : State} (h : onlyTimersChange s t) (o : Transfer) :
    onlyTimersChange s (t.setOutcome o) :=
  h

theorem State.soundActive_iff (s : State) : s.soundActive = true ↔ 1 ≤ s.st.toNat := by
  rw [State.soundActive, decide_eq_true_iff, ne_eq, ← BitVec.toNat_inj, Nat.one_le_iff_ne_zero]
  rfl

/-- The tick of the same cycle takes one off the value written. -/
theorem State.soundActive_endCycle_iff (s : State) :
    s.endCycle.soundActive = true ↔ 2 ≤ s.st.toNat := by
  rw [State.soundActive_iff, State.endCycle_st, tick_toNat]
  omega

/-! ### The handlers -/

/-- R130, with the key number as a remainder. -/
theorem exec_skp (x : RegIdx) (s : State) :
    exec (.skp x) s = skipIf (decide (s.key ((s.reg x).toNat % 16) = true)) s := by
  rw [Bool.decide_eq_true, ← State.regNibble_eq]
  rfl

/-- R131, with the key number as a remainder. -/
theorem exec_sknp (x : RegIdx) (s : State) :
    exec (.sknp x) s = skipIf (decide (s.key ((s.reg x).toNat % 16) = false)) s := by
  rw [Bool.decide_eq_false, ← State.regNibble_eq]
  rfl

theorem exec_ldVxK (x : RegIdx) (s : State) :
    exec (.ldVxK x) s = .next ((s.setKeyReg x (s.firstPressed waitKeys)).setOutcome
      (waitOutcome (s.firstPressed waitKeys))) := rfl

/-- R132 with a key to take. -/
theorem exec_ldVxK_of_some {s : State} {k : Nat} (x : RegIdx)
    (h : s.firstPressed waitKeys = some k) :
    exec (.ldVxK x) s = .next ((s.setReg x (BitVec.ofNat 8 k)).setOutcome .normal) := by
  rw [exec_ldVxK, h]
  rfl

/-- R132 without one. -/
theorem exec_ldVxK_of_none {s : State} (x : RegIdx) (h : s.firstPressed waitKeys = none) :
    exec (.ldVxK x) s = .next (s.setOutcome .transferred) := by
  rw [exec_ldVxK, h]
  rfl

theorem exec_ldVxDt (x : RegIdx) (s : State) :
    exec (.ldVxDt x) s = .next ((s.setReg x s.dt).setOutcome .normal) := rfl

theorem exec_ldDtVx (x : RegIdx) (s : State) :
    exec (.ldDtVx x) s = .next ((s.setDt (s.reg x)).setOutcome .normal) := rfl

theorem exec_ldStVx (x : RegIdx) (s : State) :
    exec (.ldStVx x) s = .next ((s.setSt (s.reg x)).setOutcome .normal) := rfl

/-! ### The obligations -/

/-- Settles O44: the scan takes the least pressed key, which fits in a byte, or finds none and the
cycle only states its outcome. -/
theorem keyWaitTakesTheLeastPressedKey : Obligations.KeyWaitTakesTheLeastPressedKey := by
  intro x s
  refine ⟨encodedAs_ldVxK x, fun k h1 h15 hk hleast => ?_, fun hnone => ?_⟩
  · have hscan := (firstPressed_waitKeys_eq_some_iff s k).mpr ⟨⟨h1, h15⟩, hk, hleast⟩
    have hbyte : (BitVec.ofNat 8 k).toNat = k := Nat.mod_eq_of_lt (by omega)
    exact exists_writesOnly (exec_ldVxK_of_some x hscan) hbyte
  · have hscan := (firstPressed_waitKeys_eq_none_iff s).mpr hnone
    exact ⟨_, exec_ldVxK_of_none x hscan, nothingChanges_setOutcome s _, rfl,
      BitVec.add_zero s.pc⟩

/-- Settles O43: both are conditional skips on the state of one key. -/
theorem keySkips : Obligations.KeySkips := by
  intro x s
  rw [exec_skp, exec_sknp]
  exact ⟨encodedAs_skp x, skipIf_skipsWhen (s.key ((s.reg x).toNat % 16) = true) s,
    encodedAs_sknp x, skipIf_skipsWhen (s.key ((s.reg x).toNat % 16) = false) s⟩

/-- Settles O46: each is one write, and the tick of its own cycle follows. -/
theorem timerAccesses : Obligations.TimerAccesses := by
  intro x s
  refine ⟨encodedAs_ldVxDt x, ⟨_, exec_ldVxDt x s, writesOnly_setReg s x s.dt, tick_toNat s.dt⟩,
    encodedAs_ldDtVx x, ⟨_, exec_ldDtVx x s, rfl, rfl, (onlyTimersChange_setDt s _).setOutcome _,
      endsNormal_setOutcome (s.setDt _), tick_toNat (s.reg x)⟩,
    encodedAs_ldStVx x, ⟨_, exec_ldStVx x s, rfl, rfl, (onlyTimersChange_setSt s _).setOutcome _,
      endsNormal_setOutcome (s.setSt _), tick_toNat (s.reg x), ?_⟩⟩
  exact State.soundActive_endCycle_iff ((s.setSt (s.reg x)).setOutcome .normal)

end Sys2Proof.Machine
end

section
/-! The host's program load (spec 70_reset_and_hazards.md R162): its two answers once the core is
initialized, and what a run of bytes in memory leaves as it was. -/

open Sys2Proof.Claims

namespace Sys2Proof.Machine

/-- R162: an image that does not fit fails whole. -/
theorem loadProgram_of_tooLong {image : List Byte} {s : State} (hinit : s.initialized = true)
    (hlen : 3584 < image.length) : loadProgram image s = .fault .imageTooLong := by
  rw [loadProgram, if_pos hinit, if_pos hlen]

/-- R162: an image that fits becomes one run of bytes from 512 upward. -/
theorem loadProgram_of_fits {image : List Byte} {s : State} (hinit : s.initialized = true)
    (hlen : image.length ≤ 3584) : loadProgram image s = .next (s.writeRun 512 image) := by
  rw [loadProgram, if_pos hinit, if_neg (Nat.not_lt.mpr hlen)]

theorem Inv.writeRun {s : State} (hs : Inv s) (base : Nat) (bytes : List Byte) :
    Inv (s.writeRun base bytes) :=
  ⟨Memory.writeBytes_wf bytes s.mem base hs.1, hs.2⟩

/-- A run that ends within the 4096 bytes of memory does not wrap, so every address below or above it
reads as before. -/
theorem State.memRead_writeRun_outside {s : State} {base a : Nat} {bytes : List Byte} (hs : Inv s)
    (hfit : base + bytes.length ≤ 4096) (ha : a < 4096) (hout : a < base ∨ base + bytes.length ≤ a) :
    (s.writeRun base bytes).memRead a = s.memRead a := by
  refine s.memRead_writeRun_of_ne base bytes hs a fun k hk => ?_
  rw [Nat.mod_eq_of_lt ha, Nat.mod_eq_of_lt (by omega)]
  omega

/-- Settles O54: a load answers a fault or one run of bytes, and 512 + 3584 is the size of memory, so
the run neither wraps nor overwrites itself. -/
theorem loadProgramIsAllOrNothing : Obligations.LoadProgramIsAllOrNothing := by
  intro image s hinit hs
  refine ⟨loadProgram_of_tooLong hinit, fun hlen => ⟨_, loadProgram_of_fits hinit hlen, ?_, ?_,
    onlyMemoryChanges_writeRun s 512 image, rfl, hs.writeRun 512 image⟩⟩
  · exact s.memRead_writeRun 512 image hs (by omega)
  · exact fun a => State.memRead_writeRun_outside hs (by omega)

end Sys2Proof.Machine
end

section
/-! What a handler that completes has done (spec 40_cycle_and_control_transfer.md R70 to R72,
10_state.md R10 to R18): one case per kind of write, and from it the rules that hold of every
instruction. -/

open Sys2Proof.Claims

namespace Sys2Proof.Machine

/-- The kinds of write by which a handler of `i` that began in `s` can have completed, each with the
classes of instruction that end in it. -/
inductive Effect (i : Instr) (s : State) : State → Prop
  | noOp (hi : i.opClass = .nopUnrecognized) : Effect i s (s.setOutcome .normal)
  | skip (hi : i.opClass ∈ [OpClass.seImm, .sneImm, .seReg, .sneReg, .skp, .sknp]) (c : Bool) :
      Effect i s (s.setOutcome (if c then .skip else .normal))
  | jump (hi : i.opClass ∈ [OpClass.jp, .jpV0]) (target : Word) :
      Effect i s ((s.setPc target).setOutcome .transferred)
  | call (hi : i.opClass = .call) (target : Word) (hroom : s.sp.toNat < 16) :
      Effect i s (((s.push s.returnAddr hroom).setPc target).setOutcome .transferred)
  | ret (hi : i.opClass = .ret) (target : Word) (hpos : 0 < s.sp.toNat) :
      Effect i s ((s.pop.setPc target).setOutcome .transferred)
  | wait (hi : i.opClass = .ldVxK) : Effect i s (s.setOutcome .transferred)
  | writeRegs (hi : i.opClass ∈ [OpClass.ldImm, .addImm, .ldReg, .or, .and, .xor, .addReg, .subReg,
        .shr, .subnReg, .shl, .rnd, .ldVxDt, .ldVxK, .ldRegs])
      (v : Vector Byte 16) (hv : sameRegsExcept (fun r => mayWriteReg r i) s { s with v := v }) :
      Effect i s ({ s with v := v }.setOutcome .normal)
  | setIndex (hi : i.opClass ∈ [OpClass.ldI, .addI, .ldF]) (val : Word) :
      Effect i s ((s.setIndex val).setOutcome .normal)
  | setDt (hi : i.opClass = .ldDtVx) (val : Byte) : Effect i s ((s.setDt val).setOutcome .normal)
  | setSt (hi : i.opClass = .ldStVx) (val : Byte) : Effect i s ((s.setSt val).setOutcome .normal)
  | store (hi : i.opClass ∈ [OpClass.ldB, .stRegs]) (base : Nat) (bytes : List Byte) :
      Effect i s ((s.writeRun base bytes).setOutcome .normal)
  | clear (hi : i.opClass = .cls) :
      Effect i s ((s.setFb Framebuffer.clear).setOutcome .normal)
  | draw (hi : i.opClass = .draw) (fb : Framebuffer) (hit : Bool) (hx : mayWriteReg VF i) :
      Effect i s (((s.setFb fb).setReg VF (flagByte hit)).setOutcome .normal)

/-! ### The two handlers that can stop (R76, R77, R140, log entry 5) -/

/-- A call that completes had room, and has pushed and jumped. -/
theorem exec_call_cases {nnn : Addr} {s t : State} (h : exec (.call nnn) s = .next t) :
    ∃ hroom : s.sp.toNat < 16,
      t = ((s.push s.returnAddr hroom).setPc (addrImm nnn)).setOutcome .transferred := by
  rcases lt_trichotomy s.sp.toNat 16 with hlt | heq | hgt
  · rw [exec_call_of_lt nnn s hlt] at h
    cases h
    exact ⟨hlt, rfl⟩
  · rw [exec_call_of_full nnn s heq] at h
    cases h
  · rw [exec_call, pushThen_of_gt _ _ hgt] at h
    cases h

/-- A return that completes had an entry to pop, and has jumped to it. -/
theorem exec_ret_cases {s t : State} (h : exec .ret s = .next t) :
    ∃ (_ : 0 < s.sp.toNat) (_ : s.sp.toNat ≤ 16),
      t = (s.pop.setPc s.stack[s.sp.toNat - 1]).setOutcome .transferred := by
  rcases Nat.eq_zero_or_pos s.sp.toNat with hz | hpos
  · rw [exec_ret_of_empty s hz] at h
    cases h
  · rcases Nat.lt_or_ge 16 s.sp.toNat with hgt | hle
    · rw [exec_ret, popThen_of_gt _ hgt] at h
      cases h
    · rw [exec_ret_of_pos s hpos hle] at h
      cases h
      exact ⟨hpos, hle, rfl⟩

/-- Every other handler completes from every state. -/
theorem exec_completes {i : Instr} (hcall : i.opClass ≠ .call) (hret : i.opClass ≠ .ret)
    (s : State) : ∃ t, exec i s = .next t := by
  cases i with
  | call nnn => exact absurd rfl hcall
  | ret => exact absurd rfl hret
  | _ => exact ⟨_, rfl⟩

/-! ### Every handler that completes ends in one of these writes -/

theorem exec_effect {i : Instr} {s t : State} (h : exec i s = .next t) : Effect i s t := by
  cases i with
  | nopSys | nopAlu | nopKey | nopMisc => cases h; exact .noOp rfl
  | seImm | sneImm | seReg | sneReg | skp | sknp => cases h; exact .skip (by simp [Instr.opClass]) _
  | jp | jpV0 => cases h; exact .jump (by simp [Instr.opClass]) _
  | call nnn =>
    obtain ⟨hroom, rfl⟩ := exec_call_cases h
    exact .call rfl _ hroom
  | ret =>
    obtain ⟨hpos, _, rfl⟩ := exec_ret_cases h
    exact .ret rfl _ hpos
  | ldVxK x =>
    cases hscan : s.firstPressed waitKeys with
    | none =>
      rw [exec_ldVxK_of_none x hscan] at h
      cases h
      exact .wait rfl
    | some k =>
      rw [exec_ldVxK_of_some x hscan] at h
      cases h
      exact .writeRegs (by simp [Instr.opClass]) _ fun _ hr => s.reg_setReg_of_ne _ hr
  | ldImm | addImm | ldReg | orReg | andReg | xorReg | rnd | ldVxDt =>
    cases h
    exact .writeRegs (by simp [Instr.opClass]) _ fun _ hr => s.reg_setReg_of_ne _ hr
  | addReg | subReg | shr | subnReg | shl =>
    cases h
    exact .writeRegs (by simp [Instr.opClass]) _ fun _ hr => s.reg_setFlagThenReg_of_ne _ _ hr
  | ldRegs x =>
    rw [exec_ldRegs, loadRegsFrom_eq] at h
    cases h
    refine .writeRegs (by simp [Instr.opClass]) _ ?_
    rw [← loadRegsFrom_eq]
    exact sameRegsExcept_loadRegsFrom s x
  | ldI | addI | ldF => cases h; exact .setIndex (by simp [Instr.opClass]) _
  | ldDtVx => cases h; exact .setDt rfl _
  | ldStVx => cases h; exact .setSt rfl _
  | ldB | stRegs => cases h; exact .store (by simp [Instr.opClass]) _ _
  | cls => cases h; exact .clear rfl
  | draw => cases h; exact .draw rfl _ _ rfl

/-! ### The invariant (R14, R26, log entry 6) -/

theorem Inv.endCycle {s : State} (hs : Inv s) : Inv s.endCycle := hs

theorem Inv.push {s : State} (hs : Inv s) (ret : Word) (hroom : s.sp.toNat < 16) :
    Inv (s.push ret hroom) :=
  ⟨hs.1, (s.push_sp_toNat ret hroom).trans_le (by omega)⟩

theorem Inv.pop {s : State} (hs : Inv s) (hpos : 0 < s.sp.toNat) : Inv s.pop :=
  ⟨hs.1, (s.pop_sp_toNat hpos).trans_le (by omega)⟩

/-- Of all writes only a run of bytes reaches the memory, and only a push or a pop the stack count. -/
theorem Effect.keeps_inv {i : Instr} {s t : State} (h : Effect i s t) (hs : Inv s) : Inv t := by
  cases h with
  | call _ target hroom => exact hs.push s.returnAddr hroom
  | ret _ target hpos => exact hs.pop hpos
  | store _ base bytes => exact hs.writeRun base bytes
  | _ => exact hs

/-- Settles O3: a completed step is one handler's effect followed by the end of the cycle, and each
of the two keeps the invariant. -/
theorem everyStepKeepsInv : Obligations.EveryStepKeepsInv := by
  intro s u hs hstep
  obtain ⟨_, t, hexec, rfl⟩ := step_cases hstep
  exact ((exec_effect hexec).keeps_inv hs).endCycle

/-! ### What each write leaves unchanged (R10 to R18, R38) -/

theorem Effect.sameRegsExcept {i : Instr} {s t : State} (h : Effect i s t) :
    sameRegsExcept (fun r => mayWriteReg r i) s t := by
  cases h with
  | writeRegs _ v hv => exact hv
  | draw _ fb hit hVF =>
    intro r hr
    exact (s.setFb fb).reg_setReg_of_ne _ fun heq => hr (heq ▸ hVF)
  | _ => exact fun _ _ => rfl

theorem Effect.sameIndex {i : Instr} {s t : State} (h : Effect i s t)
    (hi : i.opClass ∉ [OpClass.ldI, .addI, .ldF]) : sameIndex s t := by
  cases h with
  | setIndex hc val => exact absurd hc hi
  | _ => exact rfl

theorem Effect.samePc {i : Instr} {s t : State} (h : Effect i s t)
    (hi : i.opClass ∉ [OpClass.jp, .call, .ret, .jpV0]) : samePc s t := by
  cases h with
  | jump hc target => simp_all
  | call hc target hroom => simp_all
  | ret hc target hpos => simp_all
  | _ => exact rfl

theorem Effect.sameStack {i : Instr} {s t : State} (h : Effect i s t)
    (hi : i.opClass ∉ [OpClass.call, .ret]) : sameStack s t := by
  cases h with
  | call hc target hroom => simp_all
  | ret hc target hpos => simp_all
  | _ => exact ⟨rfl, fun _ _ => rfl⟩

theorem Effect.dt_eq {i : Instr} {s t : State} (h : Effect i s t) (hi : i.opClass ≠ .ldDtVx) :
    t.dt = s.dt := by
  cases h with
  | setDt hc val => exact absurd hc hi
  | _ => rfl

theorem Effect.st_eq {i : Instr} {s t : State} (h : Effect i s t) (hi : i.opClass ≠ .ldStVx) :
    t.st = s.st := by
  cases h with
  | setSt hc val => exact absurd hc hi
  | _ => rfl

theorem Effect.sameMemory {i : Instr} {s t : State} (h : Effect i s t)
    (hi : i.opClass ∉ [OpClass.ldB, .stRegs]) : sameMemory s t := by
  cases h with
  | store hc base bytes => exact absurd hc hi
  | _ => exact fun _ => rfl

theorem Effect.sameScreen {i : Instr} {s t : State} (h : Effect i s t)
    (hi : i.opClass ∉ [OpClass.cls, .draw]) : sameScreen s t := by
  cases h with
  | clear hc => simp_all
  | draw hc fb hit hVF => simp_all
  | _ => exact fun _ _ => rfl

theorem Effect.sameHost {i : Instr} {s t : State} (h : Effect i s t) : sameHost s t := by
  cases h <;> exact ⟨rfl, rfl, rfl⟩

/-- Settles O47: the registers each kind of write reaches. -/
theorem registersChangeOnlyByTheirWriters : Obligations.RegistersChangeOnlyByTheirWriters :=
  fun _ _ _ hexec => (exec_effect hexec).sameRegsExcept

/-- Settles O48: the frame of each kind of write, piece of state by piece of state. -/
theorem stateChangesOnlyByItsWriters : Obligations.StateChangesOnlyByItsWriters := by
  intro i s t hexec
  have heffect := exec_effect hexec
  exact ⟨heffect.sameIndex, heffect.samePc, heffect.sameStack, heffect.dt_eq, heffect.st_eq,
    heffect.sameMemory, heffect.sameScreen, heffect.sameHost⟩

/-! ### The outcome of every class (R72) -/

theorem exec_jump_transferred {i : Instr} {s t : State} (h : exec i s = .next t)
    (hi : i.opClass ∈ [OpClass.jp, .call, .ret, .jpV0]) :
    t.outcome = some .transferred ∧ t.endCycle.pc = t.pc := by
  cases i with
  | jp | jpV0 => cases h; exact ⟨rfl, BitVec.add_zero _⟩
  | call =>
    obtain ⟨_, rfl⟩ := exec_call_cases h
    exact ⟨rfl, BitVec.add_zero _⟩
  | ret =>
    obtain ⟨_, _, rfl⟩ := exec_ret_cases h
    exact ⟨rfl, BitVec.add_zero _⟩
  | _ => simp [Instr.opClass] at hi

/-- Both senses of a condition. -/
theorem skipIf_skip_or_normal {c : Bool} {s t : State} (h : skipIf c s = .next t) :
    endsSkip s t ∨ endsNormal s t := by
  cases h
  cases c with
  | true => exact .inl (endsSkip_setOutcome s)
  | false => exact .inr (endsNormal_setOutcome s)

theorem exec_skip_or_normal {i : Instr} {s t : State} (h : exec i s = .next t)
    (hi : i.opClass ∈ [OpClass.seImm, .sneImm, .seReg, .sneReg, .skp, .sknp]) :
    endsSkip s t ∨ endsNormal s t := by
  cases i with
  | seImm | sneImm | seReg | sneReg | skp | sknp => exact skipIf_skip_or_normal h
  | _ => simp [Instr.opClass] at hi

theorem exec_wait_or_normal {i : Instr} {s t : State} (h : exec i s = .next t)
    (hi : i.opClass = .ldVxK) :
    (t.outcome = some .transferred ∧ t.pc = s.pc ∧ t.endCycle.pc = s.pc) ∨ endsNormal s t := by
  cases i with
  | ldVxK x =>
    cases hscan : s.firstPressed waitKeys with
    | none =>
      rw [exec_ldVxK_of_none x hscan] at h
      cases h
      exact .inl ⟨rfl, rfl, BitVec.add_zero _⟩
    | some k =>
      rw [exec_ldVxK_of_some x hscan] at h
      cases h
      exact .inr (endsNormal_setOutcome (s.setReg x _))
  | _ => cases hi

theorem exec_endsNormal {i : Instr} {s t : State} (h : exec i s = .next t)
    (hi : i.opClass ∉ [OpClass.jp, .call, .ret, .jpV0, .seImm, .sneImm, .seReg, .sneReg, .skp, .sknp,
      .ldVxK]) : endsNormal s t := by
  have hpc : samePc s t := (exec_effect h).samePc (by simp_all)
  cases i with
  | jp | call | ret | jpV0 | seImm | sneImm | seReg | sneReg | skp | sknp | ldVxK =>
    simp [Instr.opClass] at hi
  | _ => cases h; exact hpc.endsNormal_setOutcome

/-- Settles O9: four groups of classes, each with the endings its handlers state. -/
theorem outcomeOfEveryClass : Obligations.OutcomeOfEveryClass := by
  intro i s t hexec
  exact ⟨exec_jump_transferred hexec, exec_skip_or_normal hexec, exec_wait_or_normal hexec,
    exec_endsNormal hexec⟩

/-! ### The stops and the timers of a cycle (R73, R140) -/

/-- A call is the only instruction of its class (R60). -/
theorem eq_call_of_opClass {i : Instr} (hi : i.opClass = .call) : ∃ nnn, i = .call nnn := by
  cases i with
  | call nnn => exact ⟨nnn, rfl⟩
  | _ => cases hi

theorem eq_ret_of_opClass {i : Instr} (hi : i.opClass = .ret) : i = .ret := by
  cases i with
  | ret => rfl
  | _ => cases hi

theorem step_of_overflows {s : State} (hinit : s.initialized = true) (h : overflows s) :
    step s = .fault .stackOverflow := by
  obtain ⟨hclass, hsp⟩ := h
  obtain ⟨nnn, hcall⟩ := eq_call_of_opClass hclass
  refine step_of_fault hinit ?_
  rw [hcall, exec_call_of_full nnn s (by rw [hsp]; rfl)]

theorem step_of_underflows {s : State} (hinit : s.initialized = true) (h : underflows s) :
    step s = .fault .stackUnderflow := by
  obtain ⟨hclass, hsp⟩ := h
  refine step_of_fault hinit ?_
  rw [eq_ret_of_opClass hclass, exec_ret_of_empty s (by rw [hsp]; rfl)]

theorem step_completes {s : State} (hinit : s.initialized = true) (hs : Inv s)
    (hover : ¬ overflows s) (hunder : ¬ underflows s) : ∃ t, step s = .next t := by
  have hexec : ∃ t, exec s.current s = .next t := by
    by_cases hcall : s.current.opClass = .call
    · obtain ⟨nnn, hi⟩ := eq_call_of_opClass hcall
      have hne : s.sp.toNat ≠ 16 := fun h => hover ⟨hcall, BitVec.eq_of_toNat_eq h⟩
      rw [hi]
      exact ⟨_, exec_call_of_lt nnn s (lt_of_le_of_ne hs.2 hne)⟩
    · by_cases hret : s.current.opClass = .ret
      · have hne : s.sp.toNat ≠ 0 := fun h => hunder ⟨hret, BitVec.eq_of_toNat_eq h⟩
        rw [eq_ret_of_opClass hret]
        exact ⟨_, exec_ret_of_pos s (Nat.pos_of_ne_zero hne) hs.2⟩
      · exact exec_completes hcall hret s
  obtain ⟨t, ht⟩ := hexec
  exact ⟨_, step_of_next hinit ht⟩

/-- Settles O7: every handler but `CALL` and `RET` completes, and these two do unless the stack is
full or empty. -/
theorem onlyStackFaultsStopACycle : Obligations.OnlyStackFaultsStopACycle := by
  intro s hinit hs
  exact ⟨step_of_overflows hinit, step_of_underflows hinit, step_completes hinit hs, rfl, rfl⟩

/-- Settles O8: the end of the cycle ticks what the handler left in each timer. -/
theorem timersTickOnEveryCycle : Obligations.TimersTickOnEveryCycle := by
  intro s u hstep
  obtain ⟨_, t, hexec, rfl⟩ := step_cases hstep
  refine ⟨fun x hi => ?_, fun hi => ?_, fun x hi => ?_, fun hi => ?_, fun x hi => ?_⟩
  · rw [hi, exec_ldDtVx] at hexec
    cases hexec
    exact tick_toNat (s.reg x)
  · rw [State.endCycle_dt, tick_toNat, (exec_effect hexec).dt_eq hi]
  · rw [hi, exec_ldStVx] at hexec
    cases hexec
    exact tick_toNat (s.reg x)
  · rw [State.endCycle_st, tick_toNat, (exec_effect hexec).st_eq hi]
  · rw [hi, exec_ldVxDt] at hexec
    cases hexec
    exact s.reg_setReg_self x s.dt

/-! ### The flag (R11) -/

theorem flagByte_eq_zero_or_one (b : Bool) : flagByte b = 0#8 ∨ flagByte b = 1#8 := by
  cases b with
  | true => exact .inr rfl
  | false => exact .inl rfl

theorem reg_VF_setFlagThenReg_zero_or_one (s : State) {x : RegIdx} (b : Bool) (result : Byte)
    (hx : x ≠ VF) : (s.setFlagThenReg x (flagByte b) result).reg VF = 0#8
      ∨ (s.setFlagThenReg x (flagByte b) result).reg VF = 1#8 := by
  rw [State.reg_VF_setFlagThenReg s _ _ hx]
  exact flagByte_eq_zero_or_one b

/-- Settles O32: every flag is a `flagByte`, and nothing is written over it when X is not F. -/
theorem flagIsZeroOrOne : Obligations.FlagIsZeroOrOne := by
  rintro i s t hexec (⟨x, y, hx, hi⟩ | ⟨x, y, n, rfl⟩)
  · simp only [List.mem_cons, List.not_mem_nil, or_false] at hi
    rcases hi with rfl | rfl | rfl | rfl | rfl <;> cases hexec <;>
      exact reg_VF_setFlagThenReg_zero_or_one s _ _ hx
  · cases hexec
    rw [State.reg_setOutcome, State.reg_setReg_self]
    exact flagByte_eq_zero_or_one _

end Sys2Proof.Machine
end

section
/-! The decoder and the encoder undo each other (spec 30_encoding.md R47, R57, R59, R62): which
selectors are unrecognized, what such a word decodes to, and a word put together again from its
fields. -/

open Sys2Proof.Claims

namespace Sys2Proof

/-! ### The selectors that are no operation (R52 to R55, R57) -/

theorem classifySys_eq_nop_iff (nnn : Addr) :
    classifySys nnn = .nopUnrecognized ↔ nnn ∉ recognizedSys := by
  unfold classifySys recognizedSys
  split_ifs <;> simp_all

theorem classifyAlu_eq_nop_iff (n : Nibble) :
    classifyAlu n = .nopUnrecognized ↔ n ∉ recognizedAlu := by
  unfold classifyAlu recognizedAlu
  split_ifs <;> simp_all

theorem classifyKey_eq_nop_iff (kk : Byte) :
    classifyKey kk = .nopUnrecognized ↔ kk ∉ recognizedKey := by
  unfold classifyKey recognizedKey
  split_ifs <;> simp_all

theorem classifyMisc_eq_nop_iff (kk : Byte) :
    classifyMisc kk = .nopUnrecognized ↔ kk ∉ recognizedMisc := by
  unfold classifyMisc recognizedMisc
  split_ifs <;> simp_all

/-- The sixteen families (R51). -/
theorem family_cases (f : Nibble) :
    f = 0x0#4 ∨ f = 0x1#4 ∨ f = 0x2#4 ∨ f = 0x3#4 ∨ f = 0x4#4 ∨ f = 0x5#4 ∨ f = 0x6#4 ∨ f = 0x7#4
      ∨ f = 0x8#4 ∨ f = 0x9#4 ∨ f = 0xA#4 ∨ f = 0xB#4 ∨ f = 0xC#4 ∨ f = 0xD#4 ∨ f = 0xE#4
      ∨ f = 0xF#4 := by
  revert f
  decide

/-- Only the four families with a secondary selector have unrecognized words (R57). -/
theorem classify_eq_nop_iff (w : Word) :
    classify w = .nopUnrecognized ↔
      (fieldFamily w = 0x0#4 ∧ fieldNNN w ∉ recognizedSys)
        ∨ (fieldFamily w = 0x8#4 ∧ fieldN w ∉ recognizedAlu)
        ∨ (fieldFamily w = 0xE#4 ∧ fieldKK w ∉ recognizedKey)
        ∨ (fieldFamily w = 0xF#4 ∧ fieldKK w ∉ recognizedMisc) := by
  rcases family_cases (fieldFamily w) with h | h | h | h | h | h | h | h | h | h | h | h | h | h | h | h
    <;> simp [classify, h, classifySys_eq_nop_iff, classifyAlu_eq_nop_iff, classifyKey_eq_nop_iff,
      classifyMisc_eq_nop_iff]

/-! ### What an unrecognized word decodes to (R57) -/

theorem decodeWord_of_nop {w : Word} (h : classify w = .nopUnrecognized) :
    decodeWord w = decodeUnrecognized w := by
  simp [decodeWord, describe, Descriptor.toInstr, h]

theorem decodeWord_eq_nopSys {w : Word} (hfam : fieldFamily w = 0x0#4)
    (hsel : fieldNNN w ∉ recognizedSys) : decodeWord w = .nopSys (fieldNNN w) := by
  rw [decodeWord_of_nop ((classify_eq_nop_iff w).mpr (.inl ⟨hfam, hsel⟩))]
  simp [decodeUnrecognized, hfam]

theorem decodeWord_eq_nopAlu {w : Word} (hfam : fieldFamily w = 0x8#4)
    (hsel : fieldN w ∉ recognizedAlu) :
    decodeWord w = .nopAlu (fieldX w) (fieldY w) (fieldN w) := by
  rw [decodeWord_of_nop ((classify_eq_nop_iff w).mpr (.inr (.inl ⟨hfam, hsel⟩)))]
  simp [decodeUnrecognized, hfam]

theorem decodeWord_eq_nopKey {w : Word} (hfam : fieldFamily w = 0xE#4)
    (hsel : fieldKK w ∉ recognizedKey) : decodeWord w = .nopKey (fieldX w) (fieldKK w) := by
  rw [decodeWord_of_nop ((classify_eq_nop_iff w).mpr (.inr (.inr (.inl ⟨hfam, hsel⟩))))]
  simp [decodeUnrecognized, hfam]

theorem decodeWord_eq_nopMisc {w : Word} (hfam : fieldFamily w = 0xF#4)
    (hsel : fieldKK w ∉ recognizedMisc) : decodeWord w = .nopMisc (fieldX w) (fieldKK w) := by
  rw [decodeWord_of_nop ((classify_eq_nop_iff w).mpr (.inr (.inr (.inr ⟨hfam, hsel⟩))))]
  simp [decodeUnrecognized, hfam]

/-- The check of a well-formed unrecognized instruction as a proposition (R57). -/
theorem not_contains_iff {α : Type} [BEq α] [LawfulBEq α] {l : List α} {a : α} :
    (!l.contains a) = true ↔ a ∉ l := by
  simp

/-! ### Decoding an encoding (R62) -/

theorem decodeWord_encode_nopSys {nnn : Addr} (h : nnn ∉ recognizedSys) :
    decodeWord (encode (.nopSys nnn)) = .nopSys nnn := by
  obtain ⟨hfam, hnnn⟩ := fields_addrWord 0x0 nnn (by decide)
  exact (decodeWord_eq_nopSys hfam (hnnn.symm ▸ h)).trans (by rw [hnnn])

theorem decodeWord_encode_nopAlu {n : Nibble} (x y : RegIdx) (h : n ∉ recognizedAlu) :
    decodeWord (encode (.nopAlu x y n)) = .nopAlu x y n := by
  obtain ⟨hfam, hx, hy, hn⟩ := fields_regWord 0x8 x y n (by decide)
  exact (decodeWord_eq_nopAlu hfam (hn.symm ▸ h)).trans (by rw [hx, hy, hn])

theorem decodeWord_encode_nopKey {kk : Byte} (x : RegIdx) (h : kk ∉ recognizedKey) :
    decodeWord (encode (.nopKey x kk)) = .nopKey x kk := by
  obtain ⟨hfam, hx, hkk⟩ := fields_immWord 0xE x kk (by decide)
  exact (decodeWord_eq_nopKey hfam (hkk.symm ▸ h)).trans (by rw [hx, hkk])

theorem decodeWord_encode_nopMisc {kk : Byte} (x : RegIdx) (h : kk ∉ recognizedMisc) :
    decodeWord (encode (.nopMisc x kk)) = .nopMisc x kk := by
  obtain ⟨hfam, hx, hkk⟩ := fields_immWord 0xF x kk (by decide)
  exact (decodeWord_eq_nopMisc hfam (hkk.symm ▸ h)).trans (by rw [hx, hkk])

theorem decodeWord_encode {i : Instr} (h : i.wellFormed = true) : decodeWord (encode i) = i := by
  cases i with
  | cls => exact encodedAs_cls
  | ret => rfl
  | jp nnn => exact encodedAs_jp nnn
  | call nnn => exact encodedAs_call nnn
  | seImm x kk => exact encodedAs_seImm x kk
  | sneImm x kk => exact encodedAs_sneImm x kk
  | seReg x y n => exact encodedAs_seReg x y n
  | ldImm x kk => exact encodedAs_ldImm x kk
  | addImm x kk => exact encodedAs_addImm x kk
  | ldReg x y => exact encodedAs_ldReg x y
  | orReg x y => exact encodedAs_orReg x y
  | andReg x y => exact encodedAs_andReg x y
  | xorReg x y => exact encodedAs_xorReg x y
  | addReg x y => exact encodedAs_addReg x y
  | subReg x y => exact encodedAs_subReg x y
  | shr x y => exact encodedAs_shr x y
  | subnReg x y => exact encodedAs_subnReg x y
  | shl x y => exact encodedAs_shl x y
  | sneReg x y n => exact encodedAs_sneReg x y n
  | ldI nnn => exact encodedAs_ldI nnn
  | jpV0 nnn => exact encodedAs_jpV0 nnn
  | rnd x kk => exact encodedAs_rnd x kk
  | draw x y n => exact encodedAs_draw x y n
  | skp x => exact encodedAs_skp x
  | sknp x => exact encodedAs_sknp x
  | ldVxDt x => exact encodedAs_ldVxDt x
  | ldVxK x => exact encodedAs_ldVxK x
  | ldDtVx x => exact encodedAs_ldDtVx x
  | ldStVx x => exact encodedAs_ldStVx x
  | addI x => exact encodedAs_addI x
  | ldF x => exact encodedAs_ldF x
  | ldB x => exact encodedAs_ldB x
  | stRegs x => exact encodedAs_stRegs x
  | ldRegs x => exact encodedAs_ldRegs x
  | nopSys nnn => exact decodeWord_encode_nopSys (not_contains_iff.mp h)
  | nopAlu x y n => exact decodeWord_encode_nopAlu x y (not_contains_iff.mp h)
  | nopKey x kk => exact decodeWord_encode_nopKey x (not_contains_iff.mp h)
  | nopMisc x kk => exact decodeWord_encode_nopMisc x (not_contains_iff.mp h)

/-- Settles O10: the fields of each encoding are the operands, and an unrecognized selector stays
one. -/
theorem decodeInvertsEncode : Obligations.DecodeInvertsEncode := by
  intro i hi
  refine ⟨decodeWord_encode hi, fun rest => ?_⟩
  rw [encodeBytes, decodeBytes_bytesOfWord, decodeWord_encode hi]

/-! ### A word put together from its fields (R46, R62) -/

theorem addrWord_eq {w : Word} (f : Nat) (hfam : fieldFamily w = BitVec.ofNat 4 f) :
    BitVec.ofNat 16 (f * 4096 + (fieldNNN w).toNat) = w := by
  have hw := w.isLt
  have hfw := congrArg BitVec.toNat hfam
  rw [fieldFamily_toNat, BitVec.toNat_ofNat] at hfw
  apply BitVec.eq_of_toNat_eq
  rw [BitVec.toNat_ofNat, fieldNNN_toNat]
  omega

theorem immWord_eq {w : Word} (f : Nat) (hfam : fieldFamily w = BitVec.ofNat 4 f) :
    BitVec.ofNat 16 (f * 4096 + (fieldX w).toNat * 256 + (fieldKK w).toNat) = w := by
  rw [Nat.add_assoc, ← fieldNNN_eq_fieldX_fieldKK]
  exact addrWord_eq f hfam

theorem regWord_eq {w : Word} (f : Nat) (hfam : fieldFamily w = BitVec.ofNat 4 f) :
    BitVec.ofNat 16 (f * 4096 + (fieldX w).toNat * 256 + (fieldY w).toNat * 16 + (fieldN w).toNat)
      = w := by
  rw [Nat.add_assoc, ← fieldKK_eq_fieldY_fieldN]
  exact immWord_eq f hfam

theorem pairWord_eq {w : Word} (f c : Nat) (hfam : fieldFamily w = BitVec.ofNat 4 f)
    (hn : fieldN w = BitVec.ofNat 4 c) (hc : c < 16) :
    BitVec.ofNat 16 (f * 4096 + c + (fieldX w).toNat * 256 + (fieldY w).toNat * 16) = w := by
  have hcn : (fieldN w).toNat = c := by rw [hn, BitVec.toNat_ofNat, Nat.mod_eq_of_lt hc]
  conv_rhs => rw [← regWord_eq f hfam, hcn]
  congr 1
  omega

theorem singleWord_eq {w : Word} (f c : Nat) (hfam : fieldFamily w = BitVec.ofNat 4 f)
    (hkk : fieldKK w = BitVec.ofNat 8 c) (hc : c < 256) :
    BitVec.ofNat 16 (f * 4096 + c + (fieldX w).toNat * 256) = w := by
  have hck : (fieldKK w).toNat = c := by rw [hkk, BitVec.toNat_ofNat, Nat.mod_eq_of_lt hc]
  conv_rhs => rw [← immWord_eq f hfam, hck]
  congr 1
  omega

/-! ### Encoding a decoded word (R47, R59) -/

/-- The decoder's instruction is well-formed and stands for the word it was read from. -/
def RoundTrips (w : Word) : Prop := (decodeWord w).wellFormed = true ∧ encode (decodeWord w) = w

theorem roundTrips_of_decodeWord_eq {w : Word} {i : Instr} (h : decodeWord w = i)
    (hwf : i.wellFormed = true) (henc : encode i = w) : RoundTrips w := by
  rw [RoundTrips, h]
  exact ⟨hwf, henc⟩

theorem roundTrips_family_0 {w : Word} (hfam : fieldFamily w = 0x0#4) : RoundTrips w := by
  have hword := addrWord_eq 0x0 hfam
  by_cases hsel : fieldNNN w ∈ recognizedSys
  · simp only [recognizedSys, List.mem_cons, List.not_mem_nil, or_false] at hsel
    rcases hsel with h | h <;> rw [h] at hword <;> rw [← hword] <;> exact ⟨rfl, rfl⟩
  · exact roundTrips_of_decodeWord_eq (decodeWord_eq_nopSys hfam hsel)
      (not_contains_iff.mpr hsel) hword

theorem roundTrips_family_8 {w : Word} (hfam : fieldFamily w = 0x8#4) : RoundTrips w := by
  by_cases hsel : fieldN w ∈ recognizedAlu
  · have hdec := decodeWord_of_family_8 hfam
    simp only [recognizedAlu, List.mem_cons, List.not_mem_nil, or_false] at hsel
    rcases hsel with h | h | h | h | h | h | h | h | h <;> rw [h] at hdec <;>
      exact roundTrips_of_decodeWord_eq hdec rfl (pairWord_eq 0x8 _ hfam h (by decide))
  · exact roundTrips_of_decodeWord_eq (decodeWord_eq_nopAlu hfam hsel)
      (not_contains_iff.mpr hsel) (regWord_eq 0x8 hfam)

theorem roundTrips_family_E {w : Word} (hfam : fieldFamily w = 0xE#4) : RoundTrips w := by
  by_cases hsel : fieldKK w ∈ recognizedKey
  · have hdec := decodeWord_of_family_E hfam
    simp only [recognizedKey, List.mem_cons, List.not_mem_nil, or_false] at hsel
    rcases hsel with h | h <;> rw [h] at hdec <;>
      exact roundTrips_of_decodeWord_eq hdec rfl (singleWord_eq 0xE _ hfam h (by decide))
  · exact roundTrips_of_decodeWord_eq (decodeWord_eq_nopKey hfam hsel)
      (not_contains_iff.mpr hsel) (immWord_eq 0xE hfam)

theorem roundTrips_family_F {w : Word} (hfam : fieldFamily w = 0xF#4) : RoundTrips w := by
  by_cases hsel : fieldKK w ∈ recognizedMisc
  · have hdec := decodeWord_of_family_F hfam
    simp only [recognizedMisc, List.mem_cons, List.not_mem_nil, or_false] at hsel
    rcases hsel with h | h | h | h | h | h | h | h | h <;> rw [h] at hdec <;>
      exact roundTrips_of_decodeWord_eq hdec rfl (singleWord_eq 0xF _ hfam h (by decide))
  · exact roundTrips_of_decodeWord_eq (decodeWord_eq_nopMisc hfam hsel)
      (not_contains_iff.mpr hsel) (immWord_eq 0xF hfam)

theorem decodeWord_roundTrips (w : Word) : RoundTrips w := by
  rcases family_cases (fieldFamily w) with h | h | h | h | h | h | h | h | h | h | h | h | h | h | h | h
  · exact roundTrips_family_0 h
  · exact roundTrips_of_decodeWord_eq (decodeWord_of_family_1 h) rfl (addrWord_eq 0x1 h)
  · exact roundTrips_of_decodeWord_eq (decodeWord_of_family_2 h) rfl (addrWord_eq 0x2 h)
  · exact roundTrips_of_decodeWord_eq (decodeWord_of_family_3 h) rfl (immWord_eq 0x3 h)
  · exact roundTrips_of_decodeWord_eq (decodeWord_of_family_4 h) rfl (immWord_eq 0x4 h)
  · exact roundTrips_of_decodeWord_eq (decodeWord_of_family_5 h) rfl (regWord_eq 0x5 h)
  · exact roundTrips_of_decodeWord_eq (decodeWord_of_family_6 h) rfl (immWord_eq 0x6 h)
  · exact roundTrips_of_decodeWord_eq (decodeWord_of_family_7 h) rfl (immWord_eq 0x7 h)
  · exact roundTrips_family_8 h
  · exact roundTrips_of_decodeWord_eq (decodeWord_of_family_9 h) rfl (regWord_eq 0x9 h)
  · exact roundTrips_of_decodeWord_eq (decodeWord_of_family_A h) rfl (addrWord_eq 0xA h)
  · exact roundTrips_of_decodeWord_eq (decodeWord_of_family_B h) rfl (addrWord_eq 0xB h)
  · exact roundTrips_of_decodeWord_eq (decodeWord_of_family_C h) rfl (immWord_eq 0xC h)
  · exact roundTrips_of_decodeWord_eq (decodeWord_of_family_D h) rfl (regWord_eq 0xD h)
  · exact roundTrips_family_E h
  · exact roundTrips_family_F h

/-- Settles O11: family by family the decoded operands are all the fields of the word beside its
fixed selector. -/
theorem encodeInvertsDecode : Obligations.EncodeInvertsDecode := decodeWord_roundTrips

end Sys2Proof
end

section
/-! The decoder against the table of match and mask rows, the unrecognized words as numbers, and the
fields an instruction ignores (spec 30_encoding.md R56, R57, R60). -/

open Sys2Proof.Machine Sys2Proof.Claims

namespace Sys2Proof

/-! ### The class of a decoded word (R47) -/

theorem opClass_decodeUnrecognized (w : Word) :
    (decodeUnrecognized w).opClass = .nopUnrecognized := by
  unfold decodeUnrecognized
  split_ifs <;> rfl

theorem opClass_decodeWord (w : Word) : (decodeWord w).opClass = classify w := by
  unfold decodeWord Descriptor.toInstr
  change _ = (describe w).cls
  cases (describe w).cls with
  | nopUnrecognized => exact opClass_decodeUnrecognized w
  | _ => rfl

/-! ### A matching row gives the class (R60) -/

/-- The class comes from the family and, in the four families that have one, its selector (R50). -/
theorem classify_congr {w u : Word} (hfam : fieldFamily w = fieldFamily u)
    (hsys : fieldFamily u = 0x0#4 → fieldNNN w = fieldNNN u)
    (halu : fieldFamily u = 0x8#4 → fieldN w = fieldN u)
    (hkk : fieldFamily u = 0xE#4 ∨ fieldFamily u = 0xF#4 → fieldKK w = fieldKK u) :
    classify w = classify u := by
  rcases family_cases (fieldFamily u) with h | h | h | h | h | h | h | h | h | h | h | h | h | h | h | h
    <;> simp_all [classify]

/-- The mask of a row keeps the family of a word and the selector of that family. -/
def OpcodeRow.keepsSelector (row : OpcodeRow) : Prop :=
  fieldFamily row.mask = 0xF#4
    ∧ (fieldFamily row.pattern = 0x0#4 → fieldNNN row.mask = 0xFFF#12)
    ∧ (fieldFamily row.pattern = 0x8#4 → fieldN row.mask = 0xF#4)
    ∧ (fieldFamily row.pattern = 0xE#4 ∨ fieldFamily row.pattern = 0xF#4 →
      fieldKK row.mask = 0xFF#8)

theorem opcodeTable_keepsSelector : ∀ row ∈ opcodeTable, row.keepsSelector := by
  unfold OpcodeRow.keepsSelector
  decide

theorem classify_pattern : ∀ row ∈ opcodeTable, classify row.pattern = row.cls := by decide

/-- A word that matches a row is classified as the row's own pattern. -/
theorem classify_of_matches {w : Word} {row : OpcodeRow} (hrow : row ∈ opcodeTable)
    (h : w &&& row.mask = row.pattern) : classify w = row.cls := by
  obtain ⟨hfam, hsys, halu, hkk⟩ := opcodeTable_keepsSelector row hrow
  rw [← classify_pattern row hrow]
  refine classify_congr ?_ (fun hf => ?_) (fun hf => ?_) (fun hf => ?_)
  · rw [← h, fieldFamily_and, hfam]
    exact BitVec.and_allOnes.symm
  · rw [← h, fieldNNN_and, hsys hf]
    exact BitVec.and_allOnes.symm
  · rw [← h, fieldN_and, halu hf]
    exact BitVec.and_allOnes.symm
  · rw [← h, fieldKK_and, hkk hf]
    exact BitVec.and_allOnes.symm

/-! ### Every recognized word matches a row (R60) -/

/-- A mask of the family and the low `j` bits keeps just these. -/
theorem and_familyMask (w : Word) (j : Nat) (hj : j ≤ 12) :
    w &&& BitVec.ofNat 16 (0xF000 + (2 ^ j - 1))
      = BitVec.ofNat 16 (w.toNat / 4096 * 4096 + w.toNat % 2 ^ j) := by
  have hw := w.isLt
  have hpos := Nat.two_pow_pos j
  have hpow : 2 ^ j ≤ 4096 := Nat.pow_le_pow_right (by decide : 0 < 2) hj
  have hmod := Nat.mod_lt w.toNat hpos
  apply Word.ext_fields
  · rw [fieldFamily_and, fieldFamily_ofNat _ 0xF (by omega) (by omega),
      fieldFamily_ofNat _ (w.toNat / 4096) (by omega) (by omega), ← fieldFamily_toNat,
      BitVec.ofNat_toNat, BitVec.setWidth_eq]
    exact BitVec.and_allOnes
  · apply BitVec.eq_of_toNat_eq
    rw [fieldNNN_and, BitVec.toNat_and, fieldNNN_toNat, fieldNNN_toNat, fieldNNN_toNat,
      BitVec.toNat_ofNat, BitVec.toNat_ofNat,
      show (0xF000 + (2 ^ j - 1)) % 2 ^ 16 % 4096 = 2 ^ j - 1 by omega,
      Nat.and_two_pow_sub_one_eq_mod,
      Nat.mod_mod_of_dvd _ (Nat.pow_dvd_pow 2 hj : 2 ^ j ∣ 4096)]
    omega

/-- A row for the family and the low `j` bits of a word matches the word. -/
theorem matches_of_row {w : Word} {f : Nat} (j : Nat) (hj : j ≤ 12) (hf : f < 16)
    (hfam : fieldFamily w = BitVec.ofNat 4 f)
    (hrow : ∃ row ∈ opcodeTable, row.mask = BitVec.ofNat 16 (0xF000 + (2 ^ j - 1))
      ∧ row.pattern = BitVec.ofNat 16 (f * 4096 + w.toNat % 2 ^ j)) :
    ∃ row ∈ opcodeTable, w &&& row.mask = row.pattern := by
  have hfamily : w.toNat / 4096 = f := by
    rw [← fieldFamily_toNat, hfam, BitVec.toNat_ofNat, Nat.mod_eq_of_lt hf]
  obtain ⟨row, hmem, hmask, hpattern⟩ := hrow
  exact ⟨row, hmem, by rw [hmask, hpattern, and_familyMask w j hj, hfamily]⟩

/-- The rows of family 0 (R52). -/
theorem exists_row_of_sys {nnn : Addr} (h : nnn ∈ recognizedSys) : ∃ row ∈ opcodeTable,
    row.mask = 0xFFFF#16 ∧ row.pattern = BitVec.ofNat 16 (0x0 * 4096 + nnn.toNat) := by
  simp only [recognizedSys, List.mem_cons, List.not_mem_nil, or_false] at h
  rcases h with rfl | rfl
  · exact ⟨⟨.cls, 0x00E0, 0xFFFF⟩, by decide, rfl, rfl⟩
  · exact ⟨⟨.ret, 0x00EE, 0xFFFF⟩, by decide, rfl, rfl⟩

/-- The rows of family 8 (R53). -/
theorem exists_row_of_alu : ∀ n ∈ recognizedAlu, ∃ row ∈ opcodeTable,
    row.mask = 0xF00F#16 ∧ row.pattern = BitVec.ofNat 16 (0x8 * 4096 + n.toNat) := by
  decide

/-- The rows of family E (R54). -/
theorem exists_row_of_key : ∀ kk ∈ recognizedKey, ∃ row ∈ opcodeTable,
    row.mask = 0xF0FF#16 ∧ row.pattern = BitVec.ofNat 16 (0xE * 4096 + kk.toNat) := by
  decide

/-- The rows of family F (R55). -/
theorem exists_row_of_misc : ∀ kk ∈ recognizedMisc, ∃ row ∈ opcodeTable,
    row.mask = 0xF0FF#16 ∧ row.pattern = BitVec.ofNat 16 (0xF * 4096 + kk.toNat) := by
  decide

/-- The rows of the families with one operation (R51). -/
theorem exists_row_of_family : ∀ f : Nibble, f ∉ [0x0#4, 0x8#4, 0xE#4, 0xF#4] →
    ∃ row ∈ opcodeTable, row.mask = 0xF000#16 ∧ row.pattern = BitVec.ofNat 16 (f.toNat * 4096) := by
  decide

theorem exists_matching_row {w : Word} (h : classify w ≠ .nopUnrecognized) :
    ∃ row ∈ opcodeTable, w &&& row.mask = row.pattern := by
  rw [ne_eq, classify_eq_nop_iff] at h
  by_cases hfam : fieldFamily w ∈ [0x0#4, 0x8#4, 0xE#4, 0xF#4]
  · simp only [List.mem_cons, List.not_mem_nil, or_false] at hfam
    rcases hfam with hfam | hfam | hfam | hfam
    · have hsel : fieldNNN w ∈ recognizedSys := by tauto
      exact matches_of_row 12 (by decide) (by decide) hfam
        (fieldNNN_toNat w ▸ exists_row_of_sys hsel)
    · have hsel : fieldN w ∈ recognizedAlu := by tauto
      exact matches_of_row 4 (by decide) (by decide) hfam
        (fieldN_toNat w ▸ exists_row_of_alu _ hsel)
    · have hsel : fieldKK w ∈ recognizedKey := by tauto
      exact matches_of_row 8 (by decide) (by decide) hfam
        (fieldKK_toNat w ▸ exists_row_of_key _ hsel)
    · have hsel : fieldKK w ∈ recognizedMisc := by tauto
      exact matches_of_row 8 (by decide) (by decide) hfam
        (fieldKK_toNat w ▸ exists_row_of_misc _ hsel)
  · obtain ⟨row, hmem, hmask, hpattern⟩ := exists_row_of_family _ hfam
    refine matches_of_row 0 (by decide) (fieldFamily w).isLt (by simp)
      ⟨row, hmem, hmask, ?_⟩
    rw [hpattern, pow_zero, Nat.mod_one, Nat.add_zero]

/-! ### The table as a whole (R60) -/

theorem opcodeTable_recognized : ∀ row ∈ opcodeTable, row.cls ≠ .nopUnrecognized := by decide

/-- No class has two rows. -/
theorem opcodeTable_nodup_cls : (opcodeTable.map OpcodeRow.cls).Nodup := by decide

/-- Settles O12: a matching row gives the word's class, every recognized word matches some row, and
no class has two. -/
theorem decoderAgreesWithTheOpcodeTable : Obligations.DecoderAgreesWithTheOpcodeTable := by
  intro w
  rw [opClass_decodeWord]
  refine ⟨fun row hrow => ⟨classify_of_matches hrow, fun hcls => ?_⟩, fun hnop row hrow h => ?_,
    fun hnone => ?_⟩
  · have hrec : classify w ≠ .nopUnrecognized := hcls ▸ opcodeTable_recognized row hrow
    obtain ⟨row', hrow', h⟩ := exists_matching_row hrec
    have heq : row'.cls = row.cls := (classify_of_matches hrow' h).symm.trans hcls
    exact List.inj_on_of_nodup_map opcodeTable_nodup_cls hrow' hrow heq ▸ h
  · exact opcodeTable_recognized row hrow ((classify_of_matches hrow h).symm.trans hnop)
  · by_contra hrec
    obtain ⟨row, hrow, h⟩ := exists_matching_row hrec
    exact hnone row hrow h

/-! ### The unrecognized words as numbers (R57) -/

theorem fieldFamily_eq_iff (w : Word) (f : Nibble) :
    fieldFamily w = f ↔ w.toNat / 4096 = f.toNat := by
  rw [← BitVec.toNat_inj, fieldFamily_toNat]

/-- Membership of a field in a list of selectors, as a number in the list of their values. -/
theorem mem_selectors_iff {n : Nat} (a : BitVec n) (l : List (BitVec n)) :
    a ∈ l ↔ a.toNat ∈ l.map BitVec.toNat :=
  (List.mem_map_of_injective fun _ _ => BitVec.eq_of_toNat_eq).symm

/-- The selectors of family 8 that are no operation, written out. -/
theorem not_mem_recognizedAlu_iff :
    ∀ n : Nibble, n ∉ recognizedAlu ↔ n.toNat ∈ [0x8, 0x9, 0xA, 0xB, 0xC, 0xD, 0xF] := by
  decide

/-- Settles O13: the four families with a secondary selector, and the selectors that are no
operation. -/
theorem unrecognizedWordsAreExactlyThese : Obligations.UnrecognizedWordsAreExactlyThese := by
  intro w
  have hsys : fieldNNN w ∉ recognizedSys ↔ w.toNat % 4096 ≠ 0x0E0 ∧ w.toNat % 4096 ≠ 0x0EE := by
    rw [mem_selectors_iff, fieldNNN_toNat]
    simp [recognizedSys]
  have hkey : fieldKK w ∉ recognizedKey ↔ w.toNat % 256 ∉ [0x9E, 0xA1] := by
    rw [mem_selectors_iff, fieldKK_toNat]
    rfl
  have hmisc : fieldKK w ∉ recognizedMisc ↔
      w.toNat % 256 ∉ [0x07, 0x0A, 0x15, 0x18, 0x1E, 0x29, 0x33, 0x55, 0x65] := by
    rw [mem_selectors_iff, fieldKK_toNat]
    rfl
  rw [opClass_decodeWord, classify_eq_nop_iff, hsys, hkey, hmisc, not_mem_recognizedAlu_iff,
    fieldN_toNat]
  simp only [fieldFamily_eq_iff]
  rfl

/-- Settles O15: the decoder run on each word. -/
theorem sampleWordsDecode : Obligations.SampleWordsDecode := by
  unfold Obligations.SampleWordsDecode
  decide

/-! ### Ignored fields (R56) -/

theorem exec_seReg_ignores_n (x y : RegIdx) (n n' : Nibble) (s : State) :
    exec (.seReg x y n) s = exec (.seReg x y n') s := rfl

theorem exec_sneReg_ignores_n (x y : RegIdx) (n n' : Nibble) (s : State) :
    exec (.sneReg x y n) s = exec (.sneReg x y n') s := rfl

theorem exec_shr_ignores_y (x y y' : RegIdx) (s : State) :
    exec (.shr x y) s = exec (.shr x y') s := rfl

theorem exec_shl_ignores_y (x y y' : RegIdx) (s : State) :
    exec (.shl x y) s = exec (.shl x y') s := rfl

/-- Clearing the low nibble leaves the family, X and Y (R46). -/
theorem fields_clear_n (w : Word) :
    fieldFamily (BitVec.ofNat 16 (w.toNat - w.toNat % 16)) = fieldFamily w
      ∧ fieldX (BitVec.ofNat 16 (w.toNat - w.toNat % 16)) = fieldX w
      ∧ fieldY (BitVec.ofNat 16 (w.toNat - w.toNat % 16)) = fieldY w := by
  have hw := w.isLt
  refine ⟨BitVec.eq_of_toNat_eq ?_, fieldX_ofNat _ _ ?_, fieldY_ofNat _ _ ?_⟩
  · rw [fieldFamily_toNat, fieldFamily_toNat, BitVec.toNat_ofNat]
    omega
  · rw [fieldX_toNat]
    omega
  · rw [fieldY_toNat]
    omega

/-- Clearing the Y field leaves the family, X and N (R46). -/
theorem fields_clear_y (w : Word) :
    fieldFamily (BitVec.ofNat 16 (w.toNat - w.toNat / 16 % 16 * 16)) = fieldFamily w
      ∧ fieldX (BitVec.ofNat 16 (w.toNat - w.toNat / 16 % 16 * 16)) = fieldX w
      ∧ fieldN (BitVec.ofNat 16 (w.toNat - w.toNat / 16 % 16 * 16)) = fieldN w := by
  have hw := w.isLt
  refine ⟨BitVec.eq_of_toNat_eq ?_, fieldX_ofNat _ _ ?_, fieldN_ofNat _ _ ?_⟩
  · rw [fieldFamily_toNat, fieldFamily_toNat, BitVec.toNat_ofNat]
    omega
  · rw [fieldX_toNat]
    omega
  · rw [fieldN_toNat]
    omega

theorem decodeWord_eq_shr {w : Word} (hfam : fieldFamily w = 0x8#4) (hn : fieldN w = 0x6#4) :
    decodeWord w = .shr (fieldX w) (fieldY w) := by
  rw [decodeWord_of_family_8 hfam, hn]
  rfl

theorem decodeWord_eq_shl {w : Word} (hfam : fieldFamily w = 0x8#4) (hn : fieldN w = 0xE#4) :
    decodeWord w = .shl (fieldX w) (fieldY w) := by
  rw [decodeWord_of_family_8 hfam, hn]
  rfl

/-- Settles O16: the word with the ignored field cleared decodes to the same instruction but for the
operand that no handler reads. -/
theorem ignoredBitsChangeNothing : Obligations.IgnoredBitsChangeNothing := by
  intro w s
  constructor
  · obtain ⟨hfam, hx, hy⟩ := fields_clear_n w
    rintro (h | h)
    · have hw : fieldFamily w = 0x5#4 := (fieldFamily_eq_iff w _).mpr h
      rw [decodeWord_of_family_5 hw, decodeWord_of_family_5 (hfam.trans hw), hx, hy]
      exact exec_seReg_ignores_n _ _ _ _ s
    · have hw : fieldFamily w = 0x9#4 := (fieldFamily_eq_iff w _).mpr h
      rw [decodeWord_of_family_9 hw, decodeWord_of_family_9 (hfam.trans hw), hx, hy]
      exact exec_sneReg_ignores_n _ _ _ _ s
  · obtain ⟨hfam, hx, hn⟩ := fields_clear_y w
    rintro ⟨h, hsel⟩
    have hw : fieldFamily w = 0x8#4 := (fieldFamily_eq_iff w _).mpr h
    rcases hsel with hsel | hsel
    · have hwn : fieldN w = 0x6#4 := BitVec.eq_of_toNat_eq ((fieldN_toNat w).trans hsel)
      rw [decodeWord_eq_shr hw hwn, decodeWord_eq_shr (hfam.trans hw) (hn.trans hwn), hx]
      exact exec_shr_ignores_y _ _ _ s
    · have hwn : fieldN w = 0xE#4 := BitVec.eq_of_toNat_eq ((fieldN_toNat w).trans hsel)
      rw [decodeWord_eq_shl hw hwn, decodeWord_eq_shl (hfam.trans hw) (hn.trans hwn), hx]
      exact exec_shl_ignores_y _ _ _ s

end Sys2Proof
end

section
/-! What a handler does not read (spec 10_state.md R12, R13, R19, R20; decision D9, log entry 1): two
states that differ in the inputs, and in `I`, PC and the stack entries only as far as an equivalence
of addresses allows, end a handler alike and agree again afterwards. -/

open Sys2Proof.Claims

namespace Sys2Proof.Machine

/-- What the handlers ask of addresses they are to take for the same: the sums they form stay the
same, and so does the byte of memory. -/
structure AddressEquiv (E : Word → Word → Prop) : Prop where
  refl : ∀ a, E a a
  add : ∀ {a b}, E a b → ∀ c, E (a + c) (b + c)
  mod : ∀ {a b}, E a b → b.toNat % 4096 = a.toNat % 4096

/-- Equal but for the inputs, and for `I`, PC and the stack entries up to `E`. -/
structure AgreeUpTo (E : Word → Word → Prop) (s s' : State) : Prop where
  v : s'.v = s.v
  index : E s.index s'.index
  pc : E s.pc s'.pc
  sp : s'.sp = s.sp
  stack : ∀ (k : Nat) (h : k < 16), E s.stack[k] s'.stack[k]
  dt : s'.dt = s.dt
  st : s'.st = s.st
  mem : s'.mem = s.mem
  fb : s'.fb = s.fb
  outcome : s'.outcome = s.outcome
  initialized : s'.initialized = s.initialized
  cycle : s'.cycle = s.cycle

/-- Both complete, in states related by `R`, or both stop for the same reason. -/
inductive ResultsAgree (R : State → State → Prop) : Result → Result → Prop
  | next {t t' : State} (h : R t t') : ResultsAgree R (.next t) (.next t')
  | fault (f : Fault) : ResultsAgree R (.fault f) (.fault f)
  | refused (r : Refusal) : ResultsAgree R (.refused r) (.refused r)

theorem ResultsAgree.exists_next {R : State → State → Prop} {t : State} {r : Result}
    (h : ResultsAgree R (.next t) r) : ∃ t', r = .next t' ∧ R t t' := by
  cases h with
  | next h => exact ⟨_, rfl, h⟩

theorem ResultsAgree.eq_fault {R : State → State → Prop} {f : Fault} {r : Result}
    (h : ResultsAgree R (.fault f) r) : r = .fault f := by
  cases h
  rfl

theorem ResultsAgree.eq_refused {R : State → State → Prop} {x : Refusal} {r : Result}
    (h : ResultsAgree R (.refused x) r) : r = .refused x := by
  cases h
  rfl

section
variable {E : Word → Word → Prop} {s s' : State}

/-! ### Reads -/

theorem AgreeUpTo.reg (h : AgreeUpTo E s s') (x : RegIdx) : s'.reg x = s.reg x := by
  simp only [State.reg, h.v]

theorem AgreeUpTo.regWide (h : AgreeUpTo E s s') (x : RegIdx) : s'.regWide x = s.regWide x := by
  simp only [State.regWide, h.reg]

theorem AgreeUpTo.regNibble (h : AgreeUpTo E s s') (x : RegIdx) :
    s'.regNibble x = s.regNibble x := by
  simp only [State.regNibble, h.reg]

theorem AgreeUpTo.regBlock (h : AgreeUpTo E s s') (n : Nat) : s'.regBlock n = s.regBlock n := by
  simp only [State.regBlock, h.reg]

theorem AgreeUpTo.memRead (h : AgreeUpTo E s s') {a b : Nat} (hab : b % 4096 = a % 4096) :
    s'.memRead b = s.memRead a := by
  rw [State.memRead, State.memRead, h.mem]
  exact Memory.read_congr s.mem hab

theorem AgreeUpTo.drawn (hE : AddressEquiv E) (h : AgreeUpTo E s s') (x y : RegIdx) (n : Nibble) :
    s'.drawn x y n = s.drawn x y n := by
  have hmod := hE.mod h.index
  have hread : ∀ row, Memory.read s.mem (s'.index.toNat + row)
      = Memory.read s.mem (s.index.toNat + row) :=
    fun row => Memory.read_congr s.mem (by omega)
  simp only [State.drawn, drawRows, h.reg, h.mem, h.fb, hread]

theorem AgreeUpTo.firstPressed (hkeys : ∀ k, s'.key k = s.key k) (ks : List Nat) :
    s'.firstPressed ks = s.firstPressed ks := by
  simp only [firstPressed_eq_find, hkeys]

theorem AgreeUpTo.current (hE : AddressEquiv E) (h : AgreeUpTo E s s') : s'.current = s.current := by
  have hmod := hE.mod h.pc
  rw [State.current, State.current, State.fetchWord, State.fetchWord, h.memRead hmod,
    h.memRead (show (s'.pc.toNat + 1) % 4096 = (s.pc.toNat + 1) % 4096 by omega)]

/-! ### Writes -/

theorem AgreeUpTo.setReg (h : AgreeUpTo E s s') (x : RegIdx) (val : Byte) :
    AgreeUpTo E (s.setReg x val) (s'.setReg x val) :=
  { h with v := congrArg (fun v : Vector Byte 16 => v.set x.toNat val x.isLt) h.v }

theorem AgreeUpTo.setFlagThenReg (h : AgreeUpTo E s s') (x : RegIdx) (flag result : Byte) :
    AgreeUpTo E (s.setFlagThenReg x flag result) (s'.setFlagThenReg x flag result) :=
  (h.setReg VF flag).setReg x result

theorem AgreeUpTo.setIndex (h : AgreeUpTo E s s') {a b : Word} (hab : E a b) :
    AgreeUpTo E (s.setIndex a) (s'.setIndex b) :=
  { h with index := hab }

theorem AgreeUpTo.setPc (h : AgreeUpTo E s s') {a b : Word} (hab : E a b) :
    AgreeUpTo E (s.setPc a) (s'.setPc b) :=
  { h with pc := hab }

theorem AgreeUpTo.setDt (h : AgreeUpTo E s s') (val : Byte) :
    AgreeUpTo E (s.setDt val) (s'.setDt val) :=
  { h with dt := rfl }

theorem AgreeUpTo.setSt (h : AgreeUpTo E s s') (val : Byte) :
    AgreeUpTo E (s.setSt val) (s'.setSt val) :=
  { h with st := rfl }

theorem AgreeUpTo.setFb (h : AgreeUpTo E s s') (f : Framebuffer) :
    AgreeUpTo E (s.setFb f) (s'.setFb f) :=
  { h with fb := rfl }

theorem AgreeUpTo.setOutcome (h : AgreeUpTo E s s') (o : Transfer) :
    AgreeUpTo E (s.setOutcome o) (s'.setOutcome o) :=
  { h with outcome := rfl }

theorem AgreeUpTo.writeRun (h : AgreeUpTo E s s') {a b : Nat} (hab : b % 4096 = a % 4096)
    (bytes : List Byte) : AgreeUpTo E (s.writeRun a bytes) (s'.writeRun b bytes) :=
  { h with
    mem := (congrArg (fun m => Memory.writeBytes m b bytes) h.mem).trans
      (Memory.writeBytes_congr bytes s.mem b a hab) }

theorem AgreeUpTo.loadRegsFrom (hE : AddressEquiv E) (n : Nat) :
    ∀ {s s' : State} (i : Nat), AgreeUpTo E s s' →
      AgreeUpTo E (loadRegsFrom s i n) (loadRegsFrom s' i n) := by
  induction n with
  | zero => exact fun _ h => h
  | succ n ih =>
    intro s s' i h
    have hmod := hE.mod h.index
    have hbyte : s'.memRead (s'.indexed i) = s.memRead (s.indexed i) :=
      h.memRead (by rw [State.indexed, State.indexed]; omega)
    rw [Machine.loadRegsFrom, Machine.loadRegsFrom, hbyte]
    exact ih (i + 1) (h.setReg _ _)

theorem AgreeUpTo.push (h : AgreeUpTo E s s') {a b : Word} (hab : E a b)
    (hs : s.sp.toNat < 16) (hs' : s'.sp.toNat < 16) : AgreeUpTo E (s.push a hs) (s'.push b hs') where
  __ := h
  sp := congrArg (· + 1#5) h.sp
  stack k hk := by
    simp only [State.push_stack, Vector.getElem_set, h.sp]
    split_ifs
    · exact hab
    · exact h.stack k hk

theorem AgreeUpTo.pop (h : AgreeUpTo E s s') : AgreeUpTo E s.pop s'.pop :=
  { h with sp := congrArg (· - 1#5) h.sp }

theorem AgreeUpTo.endCycle (hE : AddressEquiv E) (h : AgreeUpTo E s s') :
    AgreeUpTo E s.endCycle s'.endCycle where
  __ := h
  pc := by
    rw [State.endCycle_pc, State.endCycle_pc, h.outcome]
    exact hE.add h.pc _
  dt := congrArg tick h.dt
  st := congrArg tick h.st
  cycle := congrArg (· + 1) h.cycle

/-! ### The endings of the handlers -/

theorem AgreeUpTo.next_setReg (h : AgreeUpTo E s s') (x : RegIdx) {a b : Byte} (hab : b = a)
    (o : Transfer) :
    ResultsAgree (AgreeUpTo E) (.next ((s.setReg x a).setOutcome o))
      (.next ((s'.setReg x b).setOutcome o)) :=
  hab ▸ .next ((h.setReg x b).setOutcome o)

theorem AgreeUpTo.next_setFlagThenReg (h : AgreeUpTo E s s') (x : RegIdx) {f g a b : Byte}
    (hfg : g = f) (hab : b = a) (o : Transfer) :
    ResultsAgree (AgreeUpTo E) (.next ((s.setFlagThenReg x f a).setOutcome o))
      (.next ((s'.setFlagThenReg x g b).setOutcome o)) :=
  hfg ▸ hab ▸ .next ((h.setFlagThenReg x g b).setOutcome o)

theorem AgreeUpTo.skipIf (h : AgreeUpTo E s s') {c d : Bool} (hcd : d = c) :
    ResultsAgree (AgreeUpTo E) (skipIf c s) (skipIf d s') :=
  hcd ▸ .next (h.setOutcome _)

theorem AgreeUpTo.call (hE : AddressEquiv E) (h : AgreeUpTo E s s') (nnn : Addr) :
    ResultsAgree (AgreeUpTo E) (exec (.call nnn) s) (exec (.call nnn) s') := by
  have hsp : s'.sp.toNat = s.sp.toNat := congrArg BitVec.toNat h.sp
  rcases lt_trichotomy s.sp.toNat 16 with hlt | heq | hgt
  · rw [exec_call_of_lt nnn s hlt, exec_call_of_lt nnn s' (hsp ▸ hlt)]
    exact .next (((h.push (hE.add h.pc _) hlt _).setPc (hE.refl _)).setOutcome _)
  · rw [exec_call_of_full nnn s heq, exec_call_of_full nnn s' (hsp ▸ heq)]
    exact .fault _
  · rw [exec_call, exec_call, pushThen_of_gt _ _ hgt, pushThen_of_gt _ _ (hsp ▸ hgt)]
    exact .refused _

theorem AgreeUpTo.ret (h : AgreeUpTo E s s') :
    ResultsAgree (AgreeUpTo E) (exec .ret s) (exec .ret s') := by
  have hsp : s'.sp.toNat = s.sp.toNat := congrArg BitVec.toNat h.sp
  rcases Nat.eq_zero_or_pos s.sp.toNat with hz | hpos
  · rw [exec_ret_of_empty s hz, exec_ret_of_empty s' (hsp ▸ hz)]
    exact .fault _
  · rcases Nat.lt_or_ge 16 s.sp.toNat with hgt | hle
    · rw [exec_ret, exec_ret, popThen_of_gt _ hgt, popThen_of_gt _ (hsp ▸ hgt)]
      exact .refused _
    · rw [exec_ret_of_pos s hpos hle, exec_ret_of_pos s' (hsp ▸ hpos) (hsp ▸ hle)]
      simp only [hsp]
      exact .next ((h.pop.setPc (h.stack _ (by omega))).setOutcome _)

theorem AgreeUpTo.ldVxK (h : AgreeUpTo E s s') (hkeys : ∀ k, s'.key k = s.key k) (x : RegIdx) :
    ResultsAgree (AgreeUpTo E) (exec (.ldVxK x) s) (exec (.ldVxK x) s') := by
  have hscan := AgreeUpTo.firstPressed hkeys waitKeys
  cases hs : s.firstPressed waitKeys with
  | none =>
    rw [exec_ldVxK_of_none x hs, exec_ldVxK_of_none x (hscan.trans hs)]
    exact .next (h.setOutcome _)
  | some k =>
    rw [exec_ldVxK_of_some x hs, exec_ldVxK_of_some x (hscan.trans hs)]
    exact h.next_setReg x rfl _

/-- A handler reads nothing in which the two states may differ, but for the inputs of the
instructions that sample one. -/
theorem AgreeUpTo.exec (hE : AddressEquiv E) (h : AgreeUpTo E s s') (i : Instr)
    (hrand : i.opClass = .rnd → s'.rand = s.rand)
    (hkeys : i.opClass ∈ [OpClass.skp, .sknp, .ldVxK] → ∀ k, s'.key k = s.key k) :
    ResultsAgree (AgreeUpTo E) (exec i s) (exec i s') := by
  have hindex : (s'.index.toNat + 0) % 4096 = (s.index.toNat + 0) % 4096 := hE.mod h.index
  cases i with
  | cls => exact .next ((h.setFb _).setOutcome _)
  | ret => exact h.ret
  | jp nnn => exact .next ((h.setPc (hE.refl _)).setOutcome _)
  | call nnn => exact h.call hE nnn
  | jpV0 nnn =>
    rw [exec_jpV0, exec_jpV0, h.regWide]
    exact .next ((h.setPc (hE.refl _)).setOutcome _)
  | seImm | sneImm | seReg | sneReg => exact h.skipIf (by simp only [h.reg])
  | skp | sknp => exact h.skipIf (by rw [h.regNibble, hkeys (by simp [Instr.opClass])])
  | ldImm | addImm | ldReg | orReg | andReg | xorReg =>
    exact h.next_setReg _ (by simp only [h.reg]) _
  | addReg | subReg | shr | subnReg | shl =>
    exact h.next_setFlagThenReg _ (by simp only [h.reg]) (by simp only [h.reg]) _
  | rnd x kk => exact h.next_setReg x (by rw [hrand rfl]) _
  | ldVxDt x => exact h.next_setReg x h.dt _
  | ldVxK x => exact h.ldVxK (hkeys (by simp [Instr.opClass])) x
  | ldI nnn => exact .next ((h.setIndex (hE.refl _)).setOutcome _)
  | addI x =>
    rw [exec_addI, exec_addI, h.regWide]
    exact .next ((h.setIndex (hE.add h.index _)).setOutcome _)
  | ldF x =>
    rw [exec_ldF, exec_ldF, h.regNibble]
    exact .next ((h.setIndex (hE.refl _)).setOutcome _)
  | ldDtVx x =>
    rw [exec_ldDtVx, exec_ldDtVx, h.reg]
    exact .next ((h.setDt _).setOutcome _)
  | ldStVx x =>
    rw [exec_ldStVx, exec_ldStVx, h.reg]
    exact .next ((h.setSt _).setOutcome _)
  | ldB x =>
    rw [exec_ldB, exec_ldB, h.reg]
    exact .next ((h.writeRun hindex _).setOutcome _)
  | stRegs x =>
    rw [exec_stRegs, exec_stRegs, h.regBlock]
    exact .next ((h.writeRun hindex _).setOutcome _)
  | ldRegs x => exact .next ((AgreeUpTo.loadRegsFrom hE _ 0 h).setOutcome _)
  | draw x y n =>
    rw [exec_draw, exec_draw, h.drawn hE]
    exact .next (((h.setFb _).setReg _ _).setOutcome _)
  | nopSys | nopAlu | nopKey | nopMisc => exact .next (h.setOutcome _)

/-! ### A whole cycle -/

theorem ResultsAgree.endOfCycle (hE : AddressEquiv E) {r r' : Result}
    (h : ResultsAgree (AgreeUpTo E) r r') :
    ResultsAgree (AgreeUpTo E) (endOfCycle r) (endOfCycle r') := by
  cases h with
  | next h => exact .next (h.endCycle hE)
  | fault f => exact .fault f
  | refused r => exact .refused r

theorem AgreeUpTo.step (hE : AddressEquiv E) (h : AgreeUpTo E s s') (hinput : s'.input = s.input) :
    ResultsAgree (AgreeUpTo E) (step s) (step s') := by
  have hexec := h.exec hE s.current (fun _ => congrArg Input.rand hinput)
    (fun _ k => congrArg (fun inp : Input => inp.keys.getLsbD k) hinput)
  rw [Machine.step, Machine.step, whenInitialized, whenInitialized, h.initialized, h.current hE]
  split_ifs
  · exact hexec.endOfCycle hE
  · exact .refused _

end

/-! ### Bits 15:12 of the addresses (R12, R13, decision D9) -/

/-- Equal but for bits 15:12. -/
def sameLowBits (a b : Word) : Prop := b.toNat % 4096 = a.toNat % 4096

theorem addressEquiv_sameLowBits : AddressEquiv sameLowBits where
  refl _ := rfl
  add hab c := by
    simp only [sameLowBits, BitVec.toNat_add] at hab ⊢
    omega
  mod hab := hab

theorem agreeBelow4096_iff (s s' : State) :
    agreeBelow4096 s s' ↔ AgreeUpTo sameLowBits s s' ∧ s'.inputs = s.inputs := by
  constructor
  · rintro ⟨hv, hindex, hpc, hsp, hstack, hdt, hst, hmem, hfb, hout, hinit, hinputs, hcycle⟩
    exact ⟨⟨hv, hindex, hpc, hsp, hstack, hdt, hst, hmem, hfb, hout, hinit, hcycle⟩, hinputs⟩
  · rintro ⟨⟨hv, hindex, hpc, hsp, hstack, hdt, hst, hmem, hfb, hout, hinit, hcycle⟩, hinputs⟩
    exact ⟨hv, hindex, hpc, hsp, hstack, hdt, hst, hmem, hfb, hout, hinit, hinputs, hcycle⟩

/-- A cycle spends the first scheduled input (log entry 1). -/
theorem step_inputs {s u : State} (h : step s = .next u) : u.inputs = s.inputs.tail := by
  obtain ⟨_, t, hexec, rfl⟩ := step_cases h
  obtain ⟨_, hinputs, _⟩ := (exec_effect hexec).sameHost
  rw [State.endCycle_inputs, hinputs]

theorem State.input_congr {s s' : State} (hinputs : s'.inputs = s.inputs)
    (hcycle : s'.cycle = s.cycle) : s'.input = s.input := by
  rw [State.input, State.input, hinputs, hcycle]

/-- Settles O50: every address is reduced modulo 4096 where it is used, and the sums that form a new
one do not carry from bits 15:12 down. -/
theorem highAddressBitsAreNeverObserved : Obligations.HighAddressBitsAreNeverObserved := by
  intro s s' h
  obtain ⟨hagree, hinputs⟩ := (agreeBelow4096_iff s s').mp h
  have hstep := hagree.step addressEquiv_sameLowBits (State.input_congr hinputs hagree.cycle)
  cases hs : step s with
  | next t =>
    obtain ⟨t', hs', ht⟩ := (hs ▸ hstep).exists_next
    refine .inl ⟨t, t', rfl, hs', (agreeBelow4096_iff t t').mpr ⟨ht, ?_⟩⟩
    rw [step_inputs hs, step_inputs hs', hinputs]
  | fault f => exact .inr (.inl ⟨f, rfl, (hs ▸ hstep).eq_fault⟩)
  | refused r => exact .inr (.inr ⟨r, rfl, (hs ▸ hstep).eq_refused⟩)

/-! ### The inputs (R19, R20) -/

theorem addressEquiv_eq : AddressEquiv (· = ·) where
  refl _ := rfl
  add hab _ := hab ▸ rfl
  mod hab := hab ▸ rfl

/-- States that agree in every address too differ in the inputs alone. -/
theorem AgreeUpTo.eq_with_inputs {s s' : State} (h : AgreeUpTo (· = ·) s s') :
    s' = { s with inputs := s'.inputs } := by
  obtain ⟨hv, hindex, hpc, hsp, hstack, hdt, hst, hmem, hfb, hout, hinit, hcycle⟩ := h
  have hstack' : s'.stack = s.stack := Vector.ext fun k hk => (hstack k hk).symm
  cases s
  cases s'
  simp_all

theorem agreeUpTo_present (keys keys' : BitVec 16) (rand rand' : Byte) (s : State) :
    AgreeUpTo (· = ·) (present keys rand s) (present keys' rand' s) :=
  ⟨rfl, rfl, rfl, rfl, fun _ _ => rfl, rfl, rfl, rfl, rfl, rfl, rfl, rfl⟩

/-- A handler that does not sample what differs between two presented inputs does the same under
both. -/
theorem exec_present_of_unread {i : Instr} {keys keys' : BitVec 16} {rand rand' : Byte}
    {s t : State} (hexec : exec i (present keys rand s) = .next t)
    (hrand : i.opClass = .rnd → rand' = rand)
    (hkeys : i.opClass ∈ [OpClass.skp, .sknp, .ldVxK] → keys' = keys) :
    exec i (present keys' rand' s) = .next { t with inputs := ⟨keys', rand'⟩ :: s.inputs } := by
  have hagree := (agreeUpTo_present keys keys' rand rand' s).exec addressEquiv_eq i hrand
    fun hi k => congrArg (fun ks : BitVec 16 => ks.getLsbD k) (hkeys hi)
  obtain ⟨t', hexec', ht⟩ := (hexec ▸ hagree).exists_next
  obtain ⟨_, hinputs, _⟩ := (exec_effect hexec').sameHost
  rw [hexec', ht.eq_with_inputs, hinputs, present_inputs]

/-- Settles O49: but for `RND` no handler reads the random byte, and but for the two key skips and
the key wait none reads the keys. -/
theorem inputsReachOnlyTheirReaders : Obligations.InputsReachOnlyTheirReaders := by
  intro i keys keys' rand rand' s t hexec
  exact ⟨fun hi => exec_present_of_unread hexec (fun hrnd => absurd hrnd hi) fun _ => rfl,
    fun hi => exec_present_of_unread hexec (fun _ => rfl) fun hread => absurd hread hi⟩

end Sys2Proof.Machine
end

section
/-! Two cycles in a row (spec 40_cycle_and_control_transfer.md R76, R77; 42_index_memory.md R114,
R115; 20_memory.md R40; 43_display.md R122): a call and its return, a block stored and loaded back,
a store and the next fetch, a sprite drawn twice. -/

open Sys2Proof.Claims

namespace Sys2Proof.Machine

/-! ### A call and its return -/

/-- The entry that a call pushed is the one a return pops. -/
theorem State.pushed_entry (s : State) (ret : Word) (hroom : s.sp.toNat < 16) :
    (s.push ret hroom).stack[s.sp.toNat] = ret := by
  simp

/-- Settles O22: the stack count after the call is one more than before, so the return pops the
address that the call pushed. -/
theorem returnComesBackAfterTheCall : Obligations.ReturnComesBackAfterTheCall := by
  intro nnn s t u hcall hsp hstack
  obtain ⟨hroom, rfl⟩ := exec_call_cases hcall
  have hcount : u.sp.toNat = s.sp.toNat + 1 :=
    (congrArg BitVec.toNat hsp).trans (s.push_sp_toNat s.returnAddr hroom)
  refine ⟨_, exec_ret_of_pos u (by omega) (by omega), ?_, ?_⟩
  · have hentry : u.stack[u.sp.toNat - 1] = s.returnAddr := by
      simp only [hcount, hstack, Nat.add_sub_cancel]
      exact s.pushed_entry s.returnAddr hroom
    rw [hentry, ← State.returnAddr_toNat]
    exact endsAt_setPc u.pop s.returnAddr
  · calc u.pop.sp = s.sp + 1#5 - 1#5 := congrArg (· - 1#5) hsp
      _ = s.sp := BitVec.add_sub_cancel s.sp 1#5

/-! ### A block stored and loaded back -/

/-- The byte of register `k` in a stored block. -/
theorem State.memRead_writeRun_regBlock {s : State} (hs : Inv s) {k x : RegIdx}
    (hk : k.toNat ≤ x.toNat) :
    (s.writeRun s.index.toNat (s.regBlock (blockCount x))).memRead (s.index.toNat + k.toNat)
      = s.reg k := by
  have hx := x.isLt
  have hlen : (s.regBlock (blockCount x)).length = x.toNat + 1 := s.length_regBlock _
  rw [s.memRead_writeRun s.index.toNat _ hs (by omega) k.toNat (by omega), State.getElem_regBlock,
    BitVec.ofNat_toNat, BitVec.setWidth_eq]

/-- Settles O38: a register of the block is loaded from the byte that it was stored to. -/
theorem storedBlockLoadsBack : Obligations.StoredBlockLoadsBack := by
  intro x s t u hs hstore hmem hindex
  rw [exec_stRegs] at hstore
  cases hstore
  refine ⟨_, exec_ldRegs x u, fun k hk => ?_⟩
  rw [State.reg_setOutcome, reg_loadRegsFrom_block u x k hk, hindex, hmem, State.memRead_setOutcome,
    State.memRead_writeRun_regBlock hs hk]

/-! ### A store and the next fetch -/

theorem fetchedByte_eq (u : State) {b : Nat} (hb : b < 2) :
    fetchedByte u b = (u.memRead (u.pc.toNat + b)).toNat := by
  have hword : u.fetchWord.toNat
      = (u.memRead u.pc.toNat).toNat * 256 + (u.memRead (u.pc.toNat + 1)).toNat :=
    wordOfBytes_toNat _ _
  have hlo := (u.memRead (u.pc.toNat + 1)).isLt
  rcases show b = 0 ∨ b = 1 by omega with rfl | rfl
  · rw [fetchedByte, if_pos rfl, Nat.add_zero]
    omega
  · rw [fetchedByte, if_neg (by decide)]
    omega

/-- After a store that ends normally the next fetch reads the memory that it left, two bytes on. -/
theorem nextFetchSees_of_storesRun {count : Nat} {byte : Nat → Nat} {s t : State}
    (hrun : storesRun s.index.toNat count byte s t) (hend : endsNormal s t) :
    nextFetchSees count byte s t.endCycle := by
  intro b hb
  obtain ⟨_, _, hpc⟩ := hend
  obtain ⟨hinside, houtside⟩ := hrun
  have haddr : (t.endCycle.pc.toNat + b) % 4096 = (s.pc.toNat + 2 + b) % 4096 := by
    rw [hpc, BitVec.toNat_add, BitVec.toNat_ofNat]
    omega
  have hfetch : fetchedByte t.endCycle b = (t.memRead (s.pc.toNat + 2 + b)).toNat :=
    (fetchedByte_eq t.endCycle hb).trans (congrArg BitVec.toNat (Memory.read_congr t.mem haddr))
  rw [hfetch]
  refine ⟨fun k hk hcov => ?_, fun hmiss => ?_⟩
  · rw [← State.memRead_mod, ← hcov]
    exact (hinside k hk).1
  · rw [houtside _ fun k hk => (hmiss k hk).symm]

/-- Settles O39: both instructions store a run of bytes and end normally. -/
theorem storeIsSeenByTheNextFetch : Obligations.StoreIsSeenByTheNextFetch := by
  intro x s u hs hstep
  obtain ⟨_, t, hexec, rfl⟩ := step_cases hstep
  constructor
  · intro hi
    obtain ⟨_, t', hexec', hrun, _, hend⟩ := registerBlockIsStored x s hs
    rw [hi, hexec'] at hexec
    cases hexec
    exact nextFetchSees_of_storesRun hrun hend
  · intro hi
    obtain ⟨_, t', hexec', hrun, _, hend⟩ := decimalDigitsAreStored x s hs
    rw [hi, hexec'] at hexec
    cases hexec
    exact nextFetchSees_of_storesRun hrun hend

/-! ### A sprite drawn twice -/

/-- A sprite covers the same pixels wherever its bytes, `I` and its coordinates are the same. -/
theorem spriteCovers_congr {s u : State} {x y x' y' : RegIdx} (n : Nibble) (hmem : sameMemory s u)
    (hindex : u.index = s.index) (hx : u.reg x' = s.reg x) (hy : u.reg y' = s.reg y) (py px : Nat) :
    spriteCovers u x' y' n py px ↔ spriteCovers s x y n py px := by
  have hread : ∀ a, u.memRead a = s.memRead a := hmem
  simp only [spriteCovers, hread, hindex, hx, hy]

/-- Settles O42: the second draw flips the pixels the first one flipped, and hits a pixel exactly
where the first one had turned it on. -/
theorem secondDrawRestoresTheScreen : Obligations.SecondDrawRestoresTheScreen := by
  intro x y x' y' n s t u hdraw hscreen hmem hindex hx hy
  rw [exec_draw] at hdraw
  cases hdraw
  have hfirst := (s.drawn_flips x y n).pixel
  have hsecond := ((u.drawn_flips x' y' n).congr fun py px =>
    spriteCovers_congr n hmem hindex hx hy (py % 32) (px % 64))
  have hsame : ∀ py px, Framebuffer.pixel u.fb py px
      = Framebuffer.pixel (s.drawn x y n).1 py px := hscreen
  have hhit : (u.drawn x' y' n).2 = true ↔ ∃ py px, s.pixel py px = false
      ∧ Framebuffer.pixel (s.drawn x y n).1 py px = true := by
    have hturn : ∀ a b : Bool, b ≠ a ∧ b = true ↔ a = false ∧ b = true := by decide
    rw [hsecond.collision]
    simp only [Bool.false_eq_true, false_or, hsame, ← hfirst, hturn]
    rfl
  refine ⟨_, exec_draw x' y' n u, fun py px => ?_, fun h => ?_, fun h => ?_⟩
  · have hback : ∀ a b c : Bool, (c ≠ b ↔ b ≠ a) → c = a := by decide
    have hflip := (hsecond.pixel py px).trans (hfirst py px).symm
    rw [hsame] at hflip
    exact hback _ _ _ hflip
  · rw [State.reg_setOutcome, State.reg_setReg_self, hhit.mpr h]
    rfl
  · rw [State.reg_setOutcome, State.reg_setReg_self, Bool.eq_false_iff.mpr (mt hhit.mp h)]
    rfl

end Sys2Proof.Machine
end

section
/-! The cycle and the host's operations (spec 40_cycle_and_control_transfer.md R70 to R74;
70_reset_and_hazards.md R160 to R165): what a step makes of its handler's answer, the reset state, and
the inputs of a cycle. -/

open Sys2Proof.Claims

namespace Sys2Proof.Machine

/-! ### A step and its handler (R70, R71, R164) -/

theorem step_of_refused {s : State} {r : Refusal} (hinit : s.initialized = true)
    (h : exec s.current s = .refused r) : step s = .refused r := by
  rw [step, whenInitialized, if_pos hinit, h]
  rfl

theorem step_of_not_initialized {s : State} (h : s.initialized = false) :
    step s = .refused .uninitialized := by
  rw [step, whenInitialized, if_neg (by simp [h])]

theorem loadProgram_of_not_initialized {s : State} (h : s.initialized = false)
    (image : List Byte) : loadProgram image s = .refused .uninitialized := by
  rw [loadProgram, if_neg (by simp [h])]

/-- R33, R71: the instruction of the cycle is the one the two bytes at PC decode to. -/
theorem current_eq_of_decodeBytes {s : State} {i : Instr}
    (h : decodeBytes [s.memRead s.pc.toNat, s.memRead (s.pc.toNat + 1)] = .ok (i, [])) :
    s.current = i := by
  cases h
  rfl

/-- Settles O4: the decoded instruction is the one a step runs, and the end of the cycle passes a stop
on. -/
theorem stepRunsTheDecodedInstruction : Obligations.StepRunsTheDecodedInstruction := by
  intro s i hinit _ hdecode
  obtain rfl := current_eq_of_decodeBytes hdecode
  exact ⟨fun _ => step_of_next hinit, fun _ => step_of_fault hinit, fun _ => step_of_refused hinit⟩

/-- Settles O6: both operations ask for the mark first, and the reset state has it. -/
theorem nothingRunsBeforeInitialize : Obligations.NothingRunsBeforeInitialize :=
  fun _ => ⟨fun h => ⟨step_of_not_initialized h, loadProgram_of_not_initialized h⟩, rfl⟩

/-! ### The end of a cycle (R70, R72, R73) -/

theorem State.endCycle_pc_toNat {t : State} {o : Transfer} (h : t.outcome = some o) :
    t.endCycle.pc.toNat = (t.pc.toNat + (advanceOf (some o)).toNat) % 65536 := by
  rw [State.endCycle_pc, h, BitVec.toNat_add]

/-- Settles O5: the advance of each outcome and one tick of each timer. -/
theorem endOfCycleAdvancesPcAndTicks : Obligations.EndOfCycleAdvancesPcAndTicks := by
  intro t
  refine ⟨State.endCycle_pc_toNat, State.endCycle_pc_toNat, fun h => ?_, tick_toNat t.dt,
    tick_toNat t.st, fun _ => rfl, rfl, ⟨rfl, fun _ _ => rfl⟩, fun _ => rfl, fun _ _ => rfl, rfl, rfl,
    rfl, rfl⟩
  rw [State.endCycle_pc, h]
  exact BitVec.add_zero t.pc

/-- Settles O21: the push and the pop refuse the count by name. -/
theorem stackCountAboveSixteenIsRefused : Obligations.StackCountAboveSixteenIsRefused := by
  intro nnn s hgt
  rw [exec_call, exec_ret]
  exact ⟨pushThen_of_gt _ _ hgt, popThen_of_gt _ hgt⟩

/-! ### The reset state (R24, R36, R160) -/

theorem memRead_reset {a : Nat} (h : a < 4096) : State.reset.memRead a = Memory.initial a :=
  congrArg Memory.initial (Nat.mod_eq_of_lt h)

theorem fontTable_toNat : fontTable.map BitVec.toNat = fontOfR36.flatten := by decide

theorem isResetState_reset : isResetState State.reset := by
  refine ⟨fun r => ?_, rfl, rfl, rfl, fun k hk => ?_, rfl, rfl, Framebuffer.pixel_clear,
    fun a ha => ?_, fun a h80 ha => ?_, rfl, rfl⟩
  · simp [State.reg, State.reset]
  · simp [State.reset]
  · rw [memRead_reset (by omega), ← fontTable_toNat]
    exact (List.getD_map ..).symm
  · rw [memRead_reset ha]
    exact List.getD_eq_default _ _ h80

/-- Settles O1: field by field, the font being what unlisted addresses read as. -/
theorem resetLeavesTheSpecState : Obligations.ResetLeavesTheSpecState :=
  ⟨isResetState_reset, fun _ => step_of_not_initialized⟩

/-- Settles O2: no byte is listed and no stack entry is in use. -/
theorem resetMeetsInv : Obligations.ResetMeetsInv := ⟨reset_mem_wf, Nat.zero_le 16⟩

/-- Settles O51: a full reset is the reset state but for the inputs, which none of its clauses
reads. -/
theorem initializeIsAFullReset : Obligations.InitializeIsAFullReset :=
  fun _ => ⟨isResetState_reset, rfl⟩

/-- A load that succeeds is one run of bytes. -/
theorem loadProgram_cases {image : List Byte} {s t : State} (h : loadProgram image s = .next t) :
    t = s.writeRun 512 image := by
  cases hinit : s.initialized with
  | false =>
    rw [loadProgram_of_not_initialized hinit] at h
    cases h
  | true =>
    rcases Nat.lt_or_ge 3584 image.length with hlong | hfits
    · rw [loadProgram_of_tooLong hinit hlong] at h
      cases h
    · rw [loadProgram_of_fits hinit hfits] at h
      cases h
      rfl

/-- Settles O52: a full reset keeps only the inputs, and a load changes only memory. -/
theorem initializeErasesTheProgram : Obligations.InitializeErasesTheProgram := by
  intro image s t hload
  obtain rfl := loadProgram_cases hload
  exact ⟨rfl, rfl⟩

/-! ### The inputs of a cycle (R19, R20, R165) -/

/-- Settles O53: the presented input is the first scheduled one, and no other field changes. -/
theorem presentedInputsAreSampled : Obligations.PresentedInputsAreSampled := by
  intro keys rand s
  exact ⟨key_present keys rand s, rand_present keys rand s, rfl, reg_present keys rand s, rfl, rfl,
    ⟨rfl, fun _ _ => rfl⟩, ⟨rfl, rfl⟩, memRead_present keys rand s, pixel_present keys rand s, rfl, rfl,
    rfl, rfl, rfl⟩

end Sys2Proof.Machine
end

section
/-! Cycles in which only the timers run, and runs of steps (spec 44_keys_timers.md R132;
70_reset_and_hazards.md R169, decision D24, log entry 18). -/

open Sys2Proof.Claims

namespace Sys2Proof.Machine

/-! ### Idle cycles -/

/-- From `s` to `u` only the timers ran, for `n` cycles. -/
structure Idled (n : Nat) (s u : State) : Prop where
  regs : sameRegs s u
  index : sameIndex s u
  pc : samePc s u
  stack : sameStack s u
  memory : sameMemory s u
  screen : sameScreen s u
  dt : u.dt.toNat = s.dt.toNat - n
  st : u.st.toNat = s.st.toNat - n
  initialized : u.initialized = s.initialized

theorem Idled.refl (s : State) : Idled 0 s s :=
  ⟨fun _ => rfl, rfl, rfl, ⟨rfl, fun _ _ => rfl⟩, fun _ => rfl, fun _ _ => rfl, rfl, rfl, rfl⟩

theorem Idled.trans {m n : Nat} {s t u : State} (h : Idled m s t) (h' : Idled n t u) :
    Idled (m + n) s u where
  regs r := (h'.regs r).trans (h.regs r)
  index := Eq.trans h'.index h.index
  pc := Eq.trans h'.pc h.pc
  stack := ⟨h'.stack.1.trans h.stack.1, fun k hk => (h'.stack.2 k hk).trans (h.stack.2 k hk)⟩
  memory a := (h'.memory a).trans (h.memory a)
  screen y x := (h'.screen y x).trans (h.screen y x)
  dt := by rw [h'.dt, h.dt, Nat.sub_sub]
  st := by rw [h'.st, h.st, Nat.sub_sub]
  initialized := h'.initialized.trans h.initialized

/-- The same two bytes at the same PC are the same instruction. -/
theorem Idled.current {n : Nat} {s u : State} (h : Idled n s u) : u.current = s.current := by
  have hpc : u.pc = s.pc := h.pc
  rw [State.current, State.current, State.fetchWord, State.fetchWord, hpc, h.memory, h.memory]

theorem Idled.atJumpToSelf {n : Nat} {s u : State} (h : Idled n s u) (hs : atJumpToSelf s) :
    atJumpToSelf u := by
  have hpc : u.pc = s.pc := h.pc
  rw [Machine.atJumpToSelf, h.current, hpc]
  exact hs

/-- A handler that only states that PC stays makes an idle cycle. -/
theorem step_idles {s : State} (hinit : s.initialized = true)
    (h : exec s.current s = .next (s.setOutcome .transferred)) :
    ∃ u, step s = .next u ∧ Idled 1 s u :=
  ⟨_, step_of_next hinit h, fun _ => rfl, rfl, BitVec.add_zero s.pc, ⟨rfl, fun _ _ => rfl⟩,
    fun _ => rfl, fun _ _ => rfl, tick_toNat s.dt, tick_toNat s.st, rfl⟩

/-- A jump to its own address writes PC with the value it has. -/
theorem exec_jumpToSelf {s : State} (h : atJumpToSelf s) :
    exec s.current s = .next (s.setOutcome .transferred) := by
  obtain ⟨hlt, hi⟩ := h
  have htarget : addrImm (BitVec.ofNat 12 s.pc.toNat) = s.pc := by
    apply BitVec.eq_of_toNat_eq
    rw [addrImm_toNat, BitVec.toNat_ofNat, Nat.mod_eq_of_lt hlt]
  rw [hi, exec_jp, htarget]
  rfl

theorem exec_waitsForKey {s : State} (h : waitsForKey s) :
    exec s.current s = .next (s.setOutcome .transferred) := by
  obtain ⟨hclass, hkeys⟩ := h
  have hscan := (firstPressed_waitKeys_eq_none_iff s).mpr hkeys
  cases hi : s.current with
  | ldVxK x => exact exec_ldVxK_of_none x hscan
  | _ => rw [hi] at hclass; cases hclass

/-- Settles O45: a wait without a key is an idle cycle. -/
theorem waitingCycleChangesOnlyTheTimers : Obligations.WaitingCycleChangesOnlyTheTimers := by
  intro s hinit hwait
  obtain ⟨u, hstep, hidle⟩ := step_idles hinit (exec_waitsForKey hwait)
  exact ⟨u, hstep, hidle.regs, hidle.index, hidle.pc, hidle.stack, hidle.memory, hidle.screen,
    hidle.dt, hidle.st, hidle.current⟩

/-- Settles O55: a jump to self is an idle cycle. -/
theorem jumpToSelfIsAFixedPoint : Obligations.JumpToSelfIsAFixedPoint := by
  intro s hinit hjump
  obtain ⟨u, hstep, hidle⟩ := step_idles hinit (exec_jumpToSelf hjump)
  exact ⟨u, hstep, hidle.regs, hidle.index, hidle.pc, hidle.stack, hidle.memory, hidle.screen,
    hidle.dt, hidle.st, hidle.atJumpToSelf hjump⟩

theorem Idled.endsRun {n : Nat} {s u : State} (h : Idled n s u) (hs : endsRun s) : endsRun u :=
  ⟨h.initialized.trans hs.1, h.atJumpToSelf hs.2⟩

/-- A run that has come to its end goes on idling there. -/
theorem runSteps_idles (n : Nat) {s : State} (h : endsRun s) :
    ∃ u, runSteps n s = .next u ∧ Idled n s u := by
  induction n generalizing s with
  | zero => exact ⟨s, rfl, Idled.refl s⟩
  | succ n ih =>
    obtain ⟨hinit, hjump⟩ := h
    obtain ⟨t, hstep, hidle⟩ := step_idles hinit (exec_jumpToSelf hjump)
    obtain ⟨u, hrun, hidle'⟩ := ih (hidle.endsRun ⟨hinit, hjump⟩)
    exact ⟨u, (runSteps_succ_of_next n hstep).trans hrun, Nat.add_comm 1 n ▸ hidle.trans hidle'⟩

/-- Settles O58: `n` idle cycles in a row. -/
theorem stepsAfterTheEndRunOnlyTheTimers : Obligations.StepsAfterTheEndRunOnlyTheTimers := by
  intro n s h
  obtain ⟨u, hrun, hidle⟩ := runSteps_idles n h
  exact ⟨u, hrun, hidle.regs, hidle.index, hidle.pc, hidle.stack, hidle.memory, hidle.screen,
    hidle.dt, hidle.st, hidle.endsRun h⟩

/-! ### Runs of steps (R169 a) -/

theorem runSteps_one (s : State) : runSteps 1 s = step s := by
  cases hs : step s with
  | next t => exact runSteps_succ_of_next 0 hs
  | fault f => exact runSteps_succ_of_fault 0 hs
  | refused r => exact runSteps_succ_of_refused 0 hs

theorem runSteps_add_of_next (n : Nat) {m : Nat} {s t : State} (h : runSteps m s = .next t) :
    runSteps (m + n) s = runSteps n t := by
  induction m generalizing s with
  | zero =>
    cases h
    rw [Nat.zero_add]
  | succ m ih =>
    obtain ⟨u, hstep, hrest⟩ := runSteps_succ_cases h
    rw [Nat.succ_add, runSteps_succ_of_next _ hstep, ih hrest]

/-- A run that is stopped short stays stopped. -/
theorem runSteps_add_of_stopped (n : Nat) {m : Nat} {s : State} {r : Result}
    (hr : ∀ t, r ≠ .next t) (h : runSteps m s = r) : runSteps (m + n) s = r := by
  induction m generalizing s with
  | zero => exact absurd h.symm (hr s)
  | succ m ih =>
    rw [Nat.succ_add]
    cases hs : step s with
    | next t =>
      rw [runSteps_succ_of_next _ hs] at h ⊢
      exact ih h
    | fault f => exact (runSteps_succ_of_fault _ hs).trans ((runSteps_succ_of_fault m hs).symm.trans h)
    | refused x =>
      exact (runSteps_succ_of_refused _ hs).trans ((runSteps_succ_of_refused m hs).symm.trans h)

/-- Settles O56: by induction on the first run. -/
theorem runsOfStepsCompose : Obligations.RunsOfStepsCompose := by
  intro m n s
  exact ⟨rfl, runSteps_one s, fun _ => runSteps_add_of_next n,
    fun _ => runSteps_add_of_stopped n fun _ => nofun,
    fun _ => runSteps_add_of_stopped n fun _ => nofun⟩

/-! ### A run to its end (R169 b) -/

/-- `t` is the first state of the run from `s` that is at its end, `k` steps on. -/
def FirstEnd (k : Nat) (s t : State) : Prop :=
  runSteps k s = .next t ∧ endsRun t ∧ ∀ j u, j < k → runSteps j s = .next u → ¬ endsRun u

theorem firstEnd_zero {s : State} (h : endsRun s) : FirstEnd 0 s s := ⟨rfl, h, nofun⟩

/-- A run that is not at its end comes to it one step later than from the next state. -/
theorem firstEnd_succ_iff {k : Nat} {s t u : State} (hs : ¬ endsRun s) (hstep : step s = .next u) :
    FirstEnd (k + 1) s t ↔ FirstEnd k u t := by
  constructor
  · rintro ⟨hrun, hend, hfirst⟩
    rw [runSteps_succ_of_next k hstep] at hrun
    refine ⟨hrun, hend, fun j v hj hv => hfirst (j + 1) v (by omega) ?_⟩
    rw [runSteps_succ_of_next j hstep, hv]
  · rintro ⟨hrun, hend, hfirst⟩
    refine ⟨(runSteps_succ_of_next k hstep).trans hrun, hend, fun j v hj hv => ?_⟩
    cases j with
    | zero =>
      cases hv
      exact hs
    | succ j =>
      rw [runSteps_succ_of_next j hstep] at hv
      exact hfirst j v (by omega) hv

theorem firstEnd_of_runToEnd {n : Nat} {s t : State} (h : runToEnd n s = some t) :
    ∃ k, k ≤ n ∧ FirstEnd k s t := by
  induction n generalizing s with
  | zero =>
    obtain ⟨hend, rfl⟩ | ⟨m, u, hm, _⟩ := runToEnd_cases h
    · exact ⟨0, le_rfl, firstEnd_zero hend⟩
    · cases hm
  | succ n ih =>
    obtain ⟨hend, rfl⟩ | ⟨m, u, hm, hs, hstep, hrest⟩ := runToEnd_cases h
    · exact ⟨0, Nat.zero_le _, firstEnd_zero hend⟩
    · cases hm
      obtain ⟨k, hk, hfirst⟩ := ih hrest
      exact ⟨k + 1, by omega, (firstEnd_succ_iff hs hstep).mpr hfirst⟩

theorem runToEnd_of_firstEnd {k n : Nat} {s t : State} (hk : k ≤ n) (h : FirstEnd k s t) :
    runToEnd n s = some t := by
  induction k generalizing n s with
  | zero =>
    obtain ⟨hrun, hend, _⟩ := h
    cases hrun
    exact runToEnd_of_endsRun n hend
  | succ k ih =>
    obtain ⟨m, rfl⟩ : ∃ m, n = m + 1 := ⟨n - 1, by omega⟩
    have ⟨hrun, _, hfirst⟩ := h
    have hs : ¬ endsRun s := hfirst 0 s (by omega) rfl
    obtain ⟨u, hstep, _⟩ := runSteps_succ_cases hrun
    rw [runToEnd_succ_of_next m hs hstep]
    exact ih (by omega) ((firstEnd_succ_iff hs hstep).mp h)

/-- A jump is neither a call, a return nor a key wait. -/
theorem endsRun_not_stopping {s : State} (h : endsRun s) :
    ¬ overflows s ∧ ¬ underflows s ∧ ¬ waitsForKey s := by
  obtain ⟨_, _, hi⟩ := h
  rw [overflows, underflows, waitsForKey, hi]
  exact ⟨fun ⟨hc, _⟩ => (nomatch hc), fun ⟨hc, _⟩ => (nomatch hc), fun ⟨hc, _⟩ => (nomatch hc)⟩

/-- Settles O57: by induction, one way on the steps allowed, the other on the steps taken. -/
theorem runEndsAtTheFirstJumpToSelf : Obligations.RunEndsAtTheFirstJumpToSelf :=
  fun _ _ _ => ⟨⟨firstEnd_of_runToEnd, fun ⟨_, hk, h⟩ => runToEnd_of_firstEnd hk h⟩,
    endsRun_not_stopping⟩

end Sys2Proof.Machine
end
